-- ==== Sys2Proof/Word.lean ====
section
/-! DEFINITION. The word types of the machine (spec/00_scope.md rules R1, R9 to R11): an 8-bit data path,
12-bit instruction words, program addresses of at most 11 bits, and the fields of an instruction word. -/

namespace Sys2Proof

/-- A data byte (R10: every data value is an unsigned 8-bit integer). -/
abbrev Byte := BitVec 8

/-- An instruction word (R70: every instruction is one 12-bit program word). -/
abbrev InstrWord := BitVec 12

/-- A program address. `PC_BITS` is 9 or 11 (R6); an address of the 9-bit variant has bits 10..9 zero. -/
abbrev ProgAddr := BitVec 11

/-- The field `f`: a file address (R71). -/
abbrev FileAddr := BitVec 5

/-- The field `b`: a bit index (R71). -/
abbrev BitIndex := BitVec 3

end Sys2Proof
end

