-- ==== Sys2Proof/Config.lean ====
section
/-! DEFINITION. What an implementation fixes and what the environment decides: the admitted parameter sets
(spec/00_scope.md rule R7), the ports, the causes of a reset, and the free values (constants without a body:
nothing can be proved of what they are, so a claim holds whatever they are). -/

namespace Sys2Proof

/-- The three admitted parameter sets of R7, under the labels the spec gives them. -/
inductive Variant where
  | v54
  | v57
  | v59
  deriving DecidableEq, Repr

/-- The ports A to E of R35. Which of them exist depends on the variant. -/
inductive Port where
  | a
  | b
  | c
  | d
  | e
  deriving DecidableEq, Repr

/-- The causes of a reset, the rows of the table of R172. -/
inductive ResetCause where
  /-- power applied -/
  | powerOn
  /-- /MCLR low while running -/
  | mclr
  /-- /MCLR low while asleep -/
  | mclrSleep
  /-- watchdog time-out while running -/
  | wdt
  /-- watchdog time-out while asleep -/
  | wdtSleep
  deriving DecidableEq, Repr

/-- R18, R36: the answer of the environment to the `n`-th draw, when that draw is a read of port `p`.
Free value (log entry 10). -/
opaque Config.pinRead : Port → Nat → Byte

/-- R18, R31: the answer of the environment to the `n`-th draw, when that draw is a read of TMR0.
Free value (log entry 11). -/
opaque Config.timerDraw : Nat → Byte

/-- R159: whether an enabled watchdog expires at the `n`-th draw. Free value (log entry 12). -/
opaque Config.watchdogExpires : Nat → Bool

/-- R172: whether an /MCLR reset of the running machine leaves /TO and /PD as they were (true) or sets both
(false). Free value (log entry 13). -/
opaque Config.mclrKeepsToPd : Nat → Bool

/-- R154: which of several simultaneous causes gives the value of /TO. Free value (log entry 14). -/
opaque Config.whichCauseTo : Nat → Nat

/-- R154: which of several simultaneous causes gives the value of /PD. Free value (log entry 14). -/
opaque Config.whichCausePd : Nat → Nat

/-- R172: Z, DC, C after a reset event. Free value (log entry 15), as are the eight that follow. -/
opaque Config.resetFlags : Nat → BitVec 3

/-- R171: W after a reset event. -/
opaque Config.resetW : Nat → Byte

/-- R171: FSR after a reset event. -/
opaque Config.resetFsr : Nat → Byte

/-- R171: TMR0 after a reset event. -/
opaque Config.resetTmr0 : Nat → Byte

/-- R171: the latch of a port after a reset event. -/
opaque Config.resetLatch : Port → Nat → Byte

/-- R171: the storage byte at a data address after a reset event (address first). -/
opaque Config.resetStorage : Nat → Nat → Byte

/-- R171: the return-stack entry of a level after a reset event (level first). -/
opaque Config.resetStack : Nat → Nat → ProgAddr

/-- R171: the watchdog counter after a reset event. -/
opaque Config.resetWdt : Nat → Nat

/-- R171: the prescaler after a reset event. -/
opaque Config.resetPre : Nat → Nat

end Sys2Proof
end

