-- ==== Sys2Proof/Syntax.lean ====
section
/-! DEFINITION. The instructions: one constructor per row of spec/opcode_table.json (spec/30_encoding.md rule R74),
in the table's order. The table has one row for each TRIS word, so TRIS has five constructors. -/

namespace Sys2Proof

/-- The destination bit `d` (R15, R71): 0 stores in W, 1 stores in the file register. -/
inductive Dest where
  | w
  | f
  deriving DecidableEq, Repr

/-- An instruction of R74. Operands: `f` the file address, `d` the destination, `b` the bit index, `k` the
literal or address, each as wide as its field (R71). -/
inductive Instr where
  | nop
  | option
  | sleep
  | clrwdt
  /-- `TRIS 5` -/
  | trisA
  /-- `TRIS 6` -/
  | trisB
  /-- `TRIS 7` -/
  | trisC
  /-- `TRIS 8` -/
  | trisD
  /-- `TRIS 9` -/
  | trisE
  | movwf (f : FileAddr)
  | clrw
  | clrf (f : FileAddr)
  | subwf (f : FileAddr) (d : Dest)
  | decf (f : FileAddr) (d : Dest)
  | iorwf (f : FileAddr) (d : Dest)
  | andwf (f : FileAddr) (d : Dest)
  | xorwf (f : FileAddr) (d : Dest)
  | addwf (f : FileAddr) (d : Dest)
  | movf (f : FileAddr) (d : Dest)
  | comf (f : FileAddr) (d : Dest)
  | incf (f : FileAddr) (d : Dest)
  | decfsz (f : FileAddr) (d : Dest)
  | rrf (f : FileAddr) (d : Dest)
  | rlf (f : FileAddr) (d : Dest)
  | swapf (f : FileAddr) (d : Dest)
  | incfsz (f : FileAddr) (d : Dest)
  | bcf (f : FileAddr) (b : BitIndex)
  | bsf (f : FileAddr) (b : BitIndex)
  | btfsc (f : FileAddr) (b : BitIndex)
  | btfss (f : FileAddr) (b : BitIndex)
  | retlw (k : Byte)
  | call (k : Byte)
  | goto (k : BitVec 9)
  | movlw (k : Byte)
  | iorlw (k : Byte)
  | andlw (k : Byte)
  | xorlw (k : Byte)
  deriving DecidableEq, Repr

end Sys2Proof
end

