-- ==== Sys2Proof/Machine/Variant.lean ====
section
/-! DEFINITION. The parameters of a variant (spec/00_scope.md rules R6 to R8) and of a port (spec/10_state.md rule R35). -/

namespace Sys2Proof

/-- `PC_BITS` (R7). -/
def Variant.pcBits : Variant → Nat
  | .v54 => 9
  | .v57 => 11
  | .v59 => 11

/-- `FSR_BITS` (R7). -/
def Variant.fsrBits : Variant → Nat
  | .v54 => 5
  | .v57 => 7
  | .v59 => 8

/-- `N_BANKS` (R7). -/
def Variant.nBanks : Variant → Nat
  | .v54 => 1
  | .v57 => 4
  | .v59 => 8

/-- `LAST_PORT`, the file address of the last port register (R7). -/
def Variant.lastPort : Variant → Nat
  | .v54 => 6
  | .v57 => 7
  | .v59 => 9

/-- The mask of the `PC_BITS` low bits: `x &&& v.pcMask` is `x mod 2^PC_BITS`. -/
def Variant.pcMask (v : Variant) : ProgAddr := BitVec.ofNat 11 (2 ^ v.pcBits - 1)

/-- The mask of the implemented bits of FSR (R30). -/
def Variant.fsrMask (v : Variant) : Byte := BitVec.ofNat 8 (2 ^ v.fsrBits - 1)

/-- The depth of the return stack, `STACK_DEPTH` (R8, R40; general knowledge of the spec, log entry 6). -/
def stackDepth : Nat := 2

/-- The file address of a port register, which is also the operand of its TRIS instruction (R35, R126). -/
def Port.fileAddr : Port → Nat
  | .a => 5
  | .b => 6
  | .c => 7
  | .d => 8
  | .e => 9

/-- `PMASK[p]`, the implemented bits of a port (R35). -/
def Port.mask : Port → Byte
  | .a => 0x0F
  | .b => 0xFF
  | .c => 0xFF
  | .d => 0xFF
  | .e => 0xF0

/-- Whether the variant has the port: ports occupy 05..`LAST_PORT` (R6, R35). -/
def Variant.hasPort (v : Variant) (p : Port) : Bool := decide (p.fileAddr ≤ v.lastPort)

/-- The implemented bits of port `p` on variant `v`; no bit where the variant lacks the port. -/
def Variant.portMask (v : Variant) (p : Port) : Byte := if v.hasPort p then p.mask else 0

/-- The reset entry, the last word of program memory (R46, R173). -/
def Variant.resetPc (v : Variant) : ProgAddr := v.pcMask

end Sys2Proof
end

