-- ==== Sys2Proof/WellFormed.lean ====
section
/-! DEFINITION. Which instructions a variant has. The fields of an `Instr` are exactly as wide as the fields of its
word, so the one check left is R126: `TRIS f` exists only where the variant has the port (R78, R79). -/

namespace Sys2Proof

/-- The port whose TRIS register an instruction loads, if it is a TRIS instruction (R126). -/
def Instr.trisPort : Instr → Option Port
  | .trisA => some .a
  | .trisB => some .b
  | .trisC => some .c
  | .trisD => some .d
  | .trisE => some .e
  | .nop | .option | .sleep | .clrwdt | .movwf _ | .clrw | .clrf _ | .subwf _ _ | .decf _ _ | .iorwf _ _
  | .andwf _ _ | .xorwf _ _ | .addwf _ _ | .movf _ _ | .comf _ _ | .incf _ _ | .decfsz _ _ | .rrf _ _ | .rlf _ _
  | .swapf _ _ | .incfsz _ _ | .bcf _ _ | .bsf _ _ | .btfsc _ _ | .btfss _ _ | .retlw _ | .call _ | .goto _
  | .movlw _ | .iorlw _ | .andlw _ | .xorlw _ => none

/-- The instruction is one of the variant's (R78, R79, R126). -/
def Instr.wellFormed (v : Variant) (i : Instr) : Bool :=
  match i.trisPort with
  | some p => v.hasPort p
  | none => true

end Sys2Proof
end

