-- ==== Sys2Proof/Decode.lean ====
section
/-! DEFINITION. The decoder (spec/30_encoding.md rule R77, step by step), total on every 12-bit word and rejecting by
name, and after it the encoder, written from the encoding patterns of R74. -/

namespace Sys2Proof

/-- Why a word spells no instruction (R78). Both are the spec's `IllegalEncoding`. -/
inductive DecodeError where
  /-- the spec assigns the word to nothing on any variant -/
  | unassigned
  /-- the word is `TRIS f` for a port the variant lacks -/
  | absentPort (p : Port)
  deriving DecidableEq, Repr

/-- The destination a bit `d` stands for (R71). -/
def Dest.ofBit (b : Bool) : Dest := if b then .f else .w

/-- The bit `d` of a destination (R71). -/
def Dest.bit : Dest → BitVec 1
  | .w => 0
  | .f => 1

/-- Step (1) of R77, the words with bit 11 set. -/
def decodeLiteral (w : InstrWord) : Instr :=
  if w.extractLsb' 9 3 = 0b101#3 then .goto (w.extractLsb' 0 9)
  else if w.extractLsb' 8 4 = 0b1000#4 then .retlw (w.extractLsb' 0 8)
  else if w.extractLsb' 8 4 = 0b1001#4 then .call (w.extractLsb' 0 8)
  else if w.extractLsb' 8 4 = 0b1100#4 then .movlw (w.extractLsb' 0 8)
  else if w.extractLsb' 8 4 = 0b1101#4 then .iorlw (w.extractLsb' 0 8)
  else if w.extractLsb' 8 4 = 0b1110#4 then .andlw (w.extractLsb' 0 8)
  else .xorlw (w.extractLsb' 0 8)

/-- Step (2) of R77, the words with bits 11..10 = 01. -/
def decodeBit (w : InstrWord) : Instr :=
  if w.extractLsb' 8 2 = 0b00#2 then .bcf (w.extractLsb' 0 5) (w.extractLsb' 5 3)
  else if w.extractLsb' 8 2 = 0b01#2 then .bsf (w.extractLsb' 0 5) (w.extractLsb' 5 3)
  else if w.extractLsb' 8 2 = 0b10#2 then .btfsc (w.extractLsb' 0 5) (w.extractLsb' 5 3)
  else .btfss (w.extractLsb' 0 5) (w.extractLsb' 5 3)

/-- Step (3) of R77, the fourteen instructions with a destination bit, by bits 9..6 (2 to 15). -/
def decodeFileDest (w : InstrWord) : Instr :=
  let f : FileAddr := w.extractLsb' 0 5
  let d := Dest.ofBit (w.getLsbD 5)
  let op : BitVec 6 := w.extractLsb' 6 6
  if op = 0b000010#6 then .subwf f d
  else if op = 0b000011#6 then .decf f d
  else if op = 0b000100#6 then .iorwf f d
  else if op = 0b000101#6 then .andwf f d
  else if op = 0b000110#6 then .xorwf f d
  else if op = 0b000111#6 then .addwf f d
  else if op = 0b001000#6 then .movf f d
  else if op = 0b001001#6 then .comf f d
  else if op = 0b001010#6 then .incf f d
  else if op = 0b001011#6 then .decfsz f d
  else if op = 0b001100#6 then .rrf f d
  else if op = 0b001101#6 then .rlf f d
  else if op = 0b001110#6 then .swapf f d
  else .incfsz f d

/-- The TRIS instruction of a port, where the variant has it (step (8) of R77, R79). -/
def decodeTris (v : Variant) (p : Port) (i : Instr) : Except DecodeError Instr :=
  if v.hasPort p then .ok i else .error (.absentPort p)

/-- Steps (6) to (9) of R77, the words 0x000..0x01F and 0x040..0x05F. -/
def decodeOp (v : Variant) (w : InstrWord) : Except DecodeError Instr :=
  if w = 0x040#12 then .ok .clrw
  else if w = 0x000#12 then .ok .nop
  else if w = 0x002#12 then .ok .option
  else if w = 0x003#12 then .ok .sleep
  else if w = 0x004#12 then .ok .clrwdt
  else if w = 0x005#12 then decodeTris v .a .trisA
  else if w = 0x006#12 then decodeTris v .b .trisB
  else if w = 0x007#12 then decodeTris v .c .trisC
  else if w = 0x008#12 then decodeTris v .d .trisD
  else if w = 0x009#12 then decodeTris v .e .trisE
  else .error .unassigned

/-- The decoder of a variant (R77). -/
def decode (v : Variant) (w : InstrWord) : Except DecodeError Instr :=
  if w.extractLsb' 11 1 = 1#1 then .ok (decodeLiteral w)
  else if w.extractLsb' 10 2 = 0b01#2 then .ok (decodeBit w)
  else if w.extractLsb' 6 6 ≠ 0b000000#6 ∧ w.extractLsb' 6 6 ≠ 0b000001#6 then .ok (decodeFileDest w)
  else if w.extractLsb' 5 7 = 0b0000001#7 then .ok (.movwf (w.extractLsb' 0 5))
  else if w.extractLsb' 5 7 = 0b0000011#7 then .ok (.clrf (w.extractLsb' 0 5))
  else decodeOp v w

/-- Format FD of R72: a 6-bit opcode, `d`, `f`. -/
def encodeFileDest (op : BitVec 6) (f : FileAddr) (d : Dest) : InstrWord := op ++ d.bit ++ f

/-- Format B of R72: a 4-bit opcode, `b`, `f`. -/
def encodeFileBit (op : BitVec 4) (f : FileAddr) (b : BitIndex) : InstrWord := op ++ b ++ f

/-- Formats K and C of R72: a 4-bit opcode and `k`. -/
def encodeLiteral (op : BitVec 4) (k : Byte) : InstrWord := op ++ k

/-- The word of an instruction, by the patterns of R74. -/
def encode : Instr → InstrWord
  | .nop => 0b000000000000#12
  | .option => 0b000000000010#12
  | .sleep => 0b000000000011#12
  | .clrwdt => 0b000000000100#12
  | .trisA => 0b000000000101#12
  | .trisB => 0b000000000110#12
  | .trisC => 0b000000000111#12
  | .trisD => 0b000000001000#12
  | .trisE => 0b000000001001#12
  | .movwf f => 0b0000001#7 ++ f
  | .clrw => 0b000001000000#12
  | .clrf f => 0b0000011#7 ++ f
  | .subwf f d => encodeFileDest 0b000010#6 f d
  | .decf f d => encodeFileDest 0b000011#6 f d
  | .iorwf f d => encodeFileDest 0b000100#6 f d
  | .andwf f d => encodeFileDest 0b000101#6 f d
  | .xorwf f d => encodeFileDest 0b000110#6 f d
  | .addwf f d => encodeFileDest 0b000111#6 f d
  | .movf f d => encodeFileDest 0b001000#6 f d
  | .comf f d => encodeFileDest 0b001001#6 f d
  | .incf f d => encodeFileDest 0b001010#6 f d
  | .decfsz f d => encodeFileDest 0b001011#6 f d
  | .rrf f d => encodeFileDest 0b001100#6 f d
  | .rlf f d => encodeFileDest 0b001101#6 f d
  | .swapf f d => encodeFileDest 0b001110#6 f d
  | .incfsz f d => encodeFileDest 0b001111#6 f d
  | .bcf f b => encodeFileBit 0b0100#4 f b
  | .bsf f b => encodeFileBit 0b0101#4 f b
  | .btfsc f b => encodeFileBit 0b0110#4 f b
  | .btfss f b => encodeFileBit 0b0111#4 f b
  | .retlw k => encodeLiteral 0b1000#4 k
  | .call k => encodeLiteral 0b1001#4 k
  | .goto k => 0b101#3 ++ k
  | .movlw k => encodeLiteral 0b1100#4 k
  | .iorlw k => encodeLiteral 0b1101#4 k
  | .andlw k => encodeLiteral 0b1110#4 k
  | .xorlw k => encodeLiteral 0b1111#4 k

/-- The instruction the decoder reads from a row of the opcode table whose bits are `w`. An instruction is one
12-bit word (R70), so a number that needs more bits spells none. The variant is V59, the one whose words are those of
every row of the table (R78). -/
def decodeTableWord (_nbits w : Nat) : Option Instr :=
  if w < 4096 then
    match decode .v59 (BitVec.ofNat 12 w) with
    | .ok i => some i
    | .error _ => none
  else none

end Sys2Proof
end

