-- ==== Sys2Proof/Machine/State.lean ====
section
/-! DEFINITION. The state of the machine as plain data (spec/10_state.md), the reasons a step can stop
(spec/00_scope.md rule R17), and the state after reset (spec/10_state.md rule R46). -/

namespace Sys2Proof.Machine

/-- Why the machine stops. The hardware traps nothing (R150); these are the spec's own model faults (R17), each at a
point where the spec gives the word or the form no effect. A fault where the silicon goes on is safe. -/
inductive Fault where
  /-- R78, R151: raised by `step` when the fetched word spells no instruction, and by a TRIS instruction of a port
  the variant lacks (R126). Safe. -/
  | illegalEncoding (word : InstrWord)
  /-- R41: raised by CALL when the return stack is full. Safe. -/
  | stackOverflow
  /-- R42: raised by RETLW when no return address is on the stack. Safe. -/
  | stackUnderflow
  /-- R144: raised by DECFSZ and INCFSZ when their destination is PCL. Safe. -/
  | refusedForm (reason : String)
  deriving DecidableEq, Repr

/-- Why an instruction has no meaning in the model. -/
inductive Refusal where
  /-- An instruction the model gives no meaning yet. Every instruction has its meaning, so nothing raises it. Safe. -/
  | notModelled (mnemonic : String)
  deriving DecidableEq, Repr

/-- What a data address selects (`Sel` of R55): the rows of R54, and a storage byte under its data address
(0x00..0x0F common, `0x10 + 0x20*b + o` banked). -/
inductive FileReg where
  | indf
  | tmr0
  | pcl
  | status
  | fsr
  | port (p : Port)
  | storage (addr : Nat)
  deriving DecidableEq, Repr

/-- The flags an instruction writes and their values; a flag it does not write is `none` (R26, R48). -/
structure FlagUpdate where
  c : Option Bool
  dc : Option Bool
  z : Option Bool
  deriving DecidableEq, Repr

/-- One byte for each port, for the registers `TRIS[p]` and `LAT[p]`. The entry of a port the variant lacks is no
register of the machine: it is 0 and nothing reads or writes it. -/
structure PortFile where
  a : Byte
  b : Byte
  c : Byte
  d : Byte
  e : Byte
  deriving DecidableEq, Repr

/-- The resets the environment asserts at the coming instruction boundary (R153, R165). -/
structure ResetLines where
  powerOn : Bool
  mclr : Bool
  wdtTimeout : Bool
  deriving DecidableEq, Repr

/-- The plain storage bytes `GPR` (R38), sparse, by data address (see `FileReg.storage`): addresses strictly rising,
and no entry equal to `Memory.unlisted`. -/
abbrev Memory := List Host.Cell

/-- Program memory (R51), sparse, by program address: addresses strictly rising, and no entry equal to
`ProgMem.unlisted`. -/
abbrev ProgMem := List (Nat × InstrWord)

/-- The state of the machine. -/
structure State where
  /-- the parameter set (R7), an argument of the model that no step changes -/
  variant : Variant
  /-- `WDT_ENABLED` (R8, R159), an argument of the model that no step changes -/
  wdtEnabled : Bool
  /-- `ProgMem` (R51), an argument of the model that no step changes -/
  prog : ProgMem
  /-- `W` (R20) -/
  w : Byte
  /-- `pc` (R22): the address of the instruction to execute, and while it executes its own address -/
  pc : ProgAddr
  /-- STATUS (R25) -/
  status : Byte
  /-- the implemented bits of FSR (R30) -/
  fsr : Byte
  /-- the byte last written to TMR0 (R31) -/
  tmr0 : Byte
  /-- OPTION (R33) -/
  optionReg : Byte
  /-- `TRIS[p]` (R34) -/
  tris : PortFile
  /-- `LAT[p]` (R37) -/
  lat : PortFile
  /-- `GPR` (R38) -/
  ram : Memory
  /-- `STK[0]`, the top of the return stack (R40) -/
  stk0 : ProgAddr
  /-- `STK[1]` (R40) -/
  stk1 : ProgAddr
  /-- `sp` (R40): how many entries hold a return address -/
  sp : Nat
  /-- `WDT` (R43), of unstated width -/
  wdt : Nat
  /-- `PRE` (R43), of unstated width -/
  pre : Nat
  /-- `asleep` (R44) -/
  asleep : Bool
  /-- the MODEL's own: the resets asserted at the coming boundary (moves (b) and (c) of R165) -/
  resetLines : ResetLines
  /-- the MODEL's own: answers of the environment to the coming reads of a port or of TMR0, in program order (move
  (a) of R165). When the list is empty the answer is a free value -/
  answers : List Byte
  /-- the MODEL's own: the number of free values drawn so far, the argument of the next one -/
  draws : Nat
  deriving DecidableEq, Repr

/-- No reset is asserted. -/
def ResetLines.idle : ResetLines := ⟨false, false, false⟩

/-- The state of variant `v` after the reset that starts a run (R46, R170). STATUS is the source's 0x1F, which is also
the start value of spec/95_test_vectors.md; the state R171 leaves arbitrary is zero here (log entry 2). -/
def State.resetOf (v : Variant) : State where
  variant := v
  wdtEnabled := false
  prog := []
  w := 0
  pc := v.resetPc
  status := 0x1F
  fsr := 0
  tmr0 := 0
  optionReg := 0xFF
  tris := ⟨v.portMask .a, v.portMask .b, v.portMask .c, v.portMask .d, v.portMask .e⟩
  lat := ⟨0, 0, 0, 0, 0⟩
  ram := []
  stk0 := 0
  stk1 := 0
  sp := 0
  wdt := 0
  pre := 0
  asleep := false
  resetLines := .idle
  answers := []
  draws := 0

/-- The machine right after reset, on V59, the variant that has every row of the opcode table (log entry 1). -/
def State.reset : State := State.resetOf .v59

end Sys2Proof.Machine
end

