-- ==== Sys2Proof/Machine/Flags.lean ====
section
/-! DEFINITION. The flag computations (spec/40_arith_logic.md rule R91, spec/10_state.md rules R26 and R48) and the
bits of STATUS (R25). -/

namespace Sys2Proof.Machine

/-- Bit numbers of STATUS (R83). -/
abbrev bitC : Nat := 0
/-- DC. -/
abbrev bitDC : Nat := 1
/-- Z. -/
abbrev bitZ : Nat := 2
/-- /PD. -/
abbrev bitPD : Nat := 3
/-- /TO. -/
abbrev bitTO : Nat := 4

/-- A byte with bit `i` set to `x`. -/
def putBit (b : Byte) (i : Nat) (x : Bool) : Byte := if x then b ||| (1#8 <<< i) else b &&& ~~~(1#8 <<< i)

/-- A byte with bit `i` set to `x` where a value is given. -/
def putBit? (b : Byte) (i : Nat) (x : Option Bool) : Byte :=
  match x with
  | some x => putBit b i x
  | none => b

/-- No flag written. -/
def FlagUpdate.keep : FlagUpdate := ⟨none, none, none⟩

/-- Z alone, from the result (R26, "FlagsZ"). -/
def FlagUpdate.zero (r : Byte) : FlagUpdate := ⟨none, none, some (decide (r = 0))⟩

/-- C alone ("FlagsC"). -/
def FlagUpdate.carry (c : Bool) : FlagUpdate := ⟨some c, none, none⟩

/-- Whether the update writes no flag. -/
def FlagUpdate.isNone (u : FlagUpdate) : Bool := u.c.isNone && u.dc.isNone && u.z.isNone

/-- STATUS with the written flags in place. -/
def FlagUpdate.apply (u : FlagUpdate) (st : Byte) : Byte :=
  putBit? (putBit? (putBit? st bitC u.c) bitDC u.dc) bitZ u.z

/-- `Add(x, w)` of R91. -/
def addFlags (x w : Byte) : Byte × FlagUpdate :=
  let s : BitVec 9 := x.setWidth 9 + w.setWidth 9
  let r : Byte := s.extractLsb' 0 8
  (r, ⟨some (s.getLsbD 8), some (decide (15 < x.toNat % 16 + w.toNat % 16)), some (decide (r = 0))⟩)

/-- `Sub(x, w)` of R91: C and DC are 1 when there is no borrow. -/
def subFlags (x w : Byte) : Byte × FlagUpdate :=
  let r : Byte := x - w
  (r, ⟨some (decide (w.toNat ≤ x.toNat)), some (decide (w.toNat % 16 ≤ x.toNat % 16)), some (decide (r = 0))⟩)

/-- A result that writes Z alone. -/
def withZ (r : Byte) : Byte × FlagUpdate := (r, .zero r)

/-- A result that writes no flag. -/
def withNone (r : Byte) : Byte × FlagUpdate := (r, .keep)

/-- Rotation right through carry (R105): `C : x` to `r : C`. -/
def rotateRight (x : Byte) (c : Bool) : Byte × FlagUpdate :=
  (BitVec.ofBool c ++ x.extractLsb' 1 7, .carry (x.getLsbD 0))

/-- Rotation left through carry (R106): `x : C` to `C : r`. -/
def rotateLeft (x : Byte) (c : Bool) : Byte × FlagUpdate :=
  (x.extractLsb' 0 7 ++ BitVec.ofBool c, .carry (x.getLsbD 7))

/-- The nibble swap (R107). -/
def swapNibbles (x : Byte) : Byte := x.extractLsb' 0 4 ++ x.extractLsb' 4 4

/-- The mask `1 << b` (R73). -/
def bitMask (b : BitIndex) : Byte := 1#8 <<< b.toNat

/-- The flag C. -/
def State.carry (s : State) : Bool := s.status.getLsbD bitC

/-- Writes the flags of an update into STATUS (step (5) of R90). -/
def State.setFlags (s : State) (u : FlagUpdate) : State := { s with status := u.apply s.status }

end Sys2Proof.Machine
end

