-- ==== Sys2Proof/Machine/Ops.lean ====
section
/-! DEFINITION. The named operations over the state: the two memories, the program counter and its targets
(spec/10_state.md rules R22 to R24), the return stack (R40 to R42), the answers of the environment (spec/00_scope.md
rule R18), and the reset, the only event that breaks the instruction stream (spec/60_exceptions.md rule R153,
spec/70_reset_and_hazards.md rules R170 to R172). The hardware has no exception and no interrupt (R150, R152), so
taking a reset stands where other machines take an exception, and there is no return from it (R156). -/

namespace Sys2Proof.Machine

/-! ### Sparse memories -/

/-- The cell at address `a`; an unlisted address reads as `dflt`. -/
def Sparse.read {n : Nat} (dflt : BitVec n) : List (Nat × BitVec n) → Nat → BitVec n
  | [], _ => dflt
  | (k, x) :: m, a => if k = a then x else Sparse.read dflt m a

/-- The memory without an entry for address `a`. -/
def Sparse.erase {n : Nat} : List (Nat × BitVec n) → Nat → List (Nat × BitVec n)
  | [], _ => []
  | (k, x) :: m, a => if k = a then Sparse.erase m a else (k, x) :: Sparse.erase m a

/-- The memory with an entry for address `a` put before the first higher address. -/
def Sparse.insert {n : Nat} : List (Nat × BitVec n) → Nat → BitVec n → List (Nat × BitVec n)
  | [], a, v => [(a, v)]
  | (k, x) :: m, a, v => if a < k then (a, v) :: (k, x) :: m else (k, x) :: Sparse.insert m a v

/-- Writes `v` at address `a`, keeping the canonical form: writing `dflt` removes the entry. -/
def Sparse.write {n : Nat} (dflt : BitVec n) (m : List (Nat × BitVec n)) (a : Nat) (v : BitVec n) :
    List (Nat × BitVec n) :=
  if v = dflt then Sparse.erase m a else Sparse.insert (Sparse.erase m a) a v

/-- The canonical form from address `lo` on: addresses strictly rising, no entry equal to `dflt`. -/
def Sparse.wfFrom {n : Nat} (dflt : BitVec n) : Nat → List (Nat × BitVec n) → Bool
  | _, [] => true
  | lo, (k, x) :: m => decide (lo ≤ k) && decide (x ≠ dflt) && Sparse.wfFrom dflt (k + 1) m

/-- What a storage byte that nothing has written reads as (R171 leaves it arbitrary; log entry 3). -/
def Memory.unlisted : Byte := 0

/-- The storage byte at a data address (R57). -/
def Memory.read (m : Memory) (a : Nat) : Byte := Sparse.read Memory.unlisted m a

/-- Stores a byte at a data address (R58). -/
def Memory.write (m : Memory) (a : Nat) (v : Byte) : Memory := Sparse.write Memory.unlisted m a v

/-- The canonical form of data memory. -/
def Memory.wf (m : Memory) : Bool := Sparse.wfFrom Memory.unlisted 0 m

/-- What a program word that the image does not define reads as: the erased word of the family (log entry 4). -/
def ProgMem.unlisted : InstrWord := 0xFFF

/-- `ProgMem[a]` (R14, R51). -/
def ProgMem.read (m : ProgMem) (a : Nat) : InstrWord := Sparse.read ProgMem.unlisted m a

/-- Program memory with another word at `a`: how an image is written down from outside (no instruction does it, R51). -/
def ProgMem.write (m : ProgMem) (a : Nat) (v : InstrWord) : ProgMem := Sparse.write ProgMem.unlisted m a v

/-- The canonical form of program memory. -/
def ProgMem.wf (m : ProgMem) : Bool := Sparse.wfFrom ProgMem.unlisted 0 m

/-! ### Port registers -/

/-- The byte of a port. -/
def PortFile.get (x : PortFile) : Port → Byte
  | .a => x.a
  | .b => x.b
  | .c => x.c
  | .d => x.d
  | .e => x.e

/-- Another byte for one port. -/
def PortFile.set (x : PortFile) (p : Port) (v : Byte) : PortFile :=
  match p with
  | .a => { x with a := v }
  | .b => { x with b := v }
  | .c => { x with c := v }
  | .d => { x with d := v }
  | .e => { x with e := v }

/-- A port file written down port by port. -/
def PortFile.build (g : Port → Byte) : PortFile := ⟨g .a, g .b, g .c, g .d, g .e⟩

/-! ### The program counter -/

/-- `(pc + n) mod 2^PC_BITS` (R24). -/
def State.pcPlus (s : State) (n : ProgAddr) : ProgAddr := (s.pc + n) &&& s.variant.pcMask

/-- The normal advance (R24). -/
def State.advance (s : State) : State := { s with pc := s.pcPlus 1 }

/-- The skip (R16, R144): the word after the instruction is passed over. -/
def State.skip (s : State) : State := { s with pc := s.pcPlus 2 }

/-- `PA1 : PA0`, STATUS bits 6..5 (R12). -/
def State.pageBits (s : State) : BitVec 2 := s.status.extractLsb' 5 2

/-- `(PA1 : PA0 : 0 : k) mod 2^PC_BITS`, the target of a CALL (R134) and of a write to PCL (R23). -/
def State.lowTarget (s : State) (k : Byte) : ProgAddr := (s.pageBits ++ 0#1 ++ k) &&& s.variant.pcMask

/-- `(PA1 : PA0 : k) mod 2^PC_BITS`, the target of a GOTO (R135). -/
def State.gotoTarget (s : State) (k : BitVec 9) : ProgAddr := (s.pageBits ++ k) &&& s.variant.pcMask

/-- The fetch: `ProgMem[pc]` (R165). -/
def State.fetch (s : State) : InstrWord := s.prog.read s.pc.toNat

/-- The state with `x` placed where the next fetch reads it, at `pc`. The machine fetches only while awake and when no
reset is asserted, so both are set as the fetch needs them. -/
def State.placeWord (s : State) (x : InstrWord) : State :=
  { s with prog := s.prog.write s.pc.toNat x, asleep := false, resetLines := .idle }

/-! ### The return stack -/

/-- `Push(v)` (R41). -/
def State.push (s : State) (v : ProgAddr) : Except Fault State :=
  if stackDepth ≤ s.sp then .error .stackOverflow
  else .ok { s with stk1 := s.stk0, stk0 := v, sp := s.sp + 1 }

/-- `Pop()` (R42): the address and the state after it; `STK[1]` keeps its value. -/
def State.pop (s : State) : Except Fault (ProgAddr × State) :=
  if s.sp = 0 then .error .stackUnderflow
  else .ok (s.stk0, { s with stk0 := s.stk1, sp := s.sp - 1 })

/-! ### The environment -/

/-- One answer of the environment (R18): the next one it has given, or else a free value. -/
def State.draw (s : State) (free : Nat → Byte) : Byte × State :=
  match s.answers with
  | x :: rest => (x, { s with answers := rest })
  | [] => (free s.draws, { s with draws := s.draws + 1 })

/-- The causes of a reset at this boundary (R153, R165, R172): the lines the environment asserts, the cause named by
whether the machine sleeps, and for the watchdog only when `WDT_ENABLED` (R159). An enabled watchdog also expires
whenever the free value says so. -/
def State.resetCauses (s : State) : List ResetCause :=
  (if s.resetLines.powerOn then [ResetCause.powerOn] else [])
    ++ (if s.resetLines.mclr then [if s.asleep then ResetCause.mclrSleep else ResetCause.mclr] else [])
    ++ (if s.wdtEnabled && (s.resetLines.wdtTimeout || Config.watchdogExpires s.draws) then
          [if s.asleep then ResetCause.wdtSleep else ResetCause.wdt] else [])

/-- The passing of a boundary without a reset: with an enabled watchdog one free value is used up. -/
def State.passBoundary (s : State) : State := if s.wdtEnabled then { s with draws := s.draws + 1 } else s

/-- `(nTO, nPD)` after a reset of cause `c` (the table of R172). -/
def State.toPdAfter (s : State) (c : ResetCause) : Bool × Bool :=
  match c with
  | .powerOn => (true, true)
  | .mclr => if Config.mclrKeepsToPd s.draws then (s.status.getLsbD 4, s.status.getLsbD 3) else (true, true)
  | .mclrSleep => (true, false)
  | .wdt => (false, true)
  | .wdtSleep => (false, false)

/-- One of the causes: the only one, or with several the one a free value picks (R154). -/
def pickCause (c : ResetCause) (cs : List ResetCause) (n : Nat) : ResetCause :=
  match cs with
  | [] => c
  | _ => (c :: cs).getD (n % (cs.length + 1)) c

end Sys2Proof.Machine
end

