-- ==== Sys2Proof/Machine/Operands.lean ====
section
/-! DEFINITION. File operands: effective address, selection, reads and writes (spec/20_memory.md rules R54 to R59), and
the order of effects of an instruction with a file operand (spec/40_arith_logic.md rule R90). -/

namespace Sys2Proof.Machine

/-- `Common(n)`: the register in row `n` of R54. -/
def commonReg (v : Variant) (n : BitVec 4) : FileReg :=
  match n.toNat with
  | 0 => .indf
  | 1 => .tmr0
  | 2 => .pcl
  | 3 => .status
  | 4 => .fsr
  | 5 => .port .a
  | 6 => .port .b
  | 7 => if v.hasPort .c then .port .c else .storage 7
  | 8 => if v.hasPort .d then .port .d else .storage 8
  | 9 => if v.hasPort .e then .port .e else .storage 9
  | k => .storage k

/-- `Sel(a)` (R55): bit 4 clear selects a common register whatever the upper bits are; bit 4 set selects the storage
byte of the bank in the upper bits. -/
def selectReg (v : Variant) (a : Byte) : FileReg :=
  if a.getLsbD 4 then .storage a.toNat else commonReg v (a.extractLsb' 0 4)

/-- `EA(f)` (R56): `f = 0` is indirect through FSR, any other `f` is direct with the bank bits of FSR. -/
def State.ea (s : State) (f : FileAddr) : Byte :=
  if f = 0 then s.fsr &&& s.variant.fsrMask
  else (s.fsr &&& s.variant.fsrMask).extractLsb' 5 3 ++ f

/-- The register a file operand selects, `Sel(EA(f))`. -/
def State.sel (s : State) (f : FileAddr) : FileReg := selectReg s.variant (s.ea f)

/-- `MemRead` by what is selected (R57), with the state after it: a port or TMR0 uses up an answer of the
environment, no other read changes anything (R61). -/
def State.readReg (s : State) (r : FileReg) : Byte × State :=
  match r with
  | .indf => (0, s)
  | .tmr0 => s.draw Config.timerDraw
  | .pcl => ((s.pcPlus 1).extractLsb' 0 8, s)
  | .status => (s.status, s)
  | .fsr => (s.fsr ||| ~~~s.variant.fsrMask, s)
  | .port p => ((s.draw (Config.pinRead p)).1 &&& p.mask, (s.draw (Config.pinRead p)).2)
  | .storage a => (s.ram.read a, s)

/-- The value a read of the file operand returns. -/
def State.fileValue (s : State) (f : FileAddr) : Byte := (s.readReg (s.sel f)).1

/-- STATUS after a write of `v` to it (R29). `flags` says whether the instruction itself writes one of Z, DC, C: then
bits 2..0 are not taken from `v`. Bits 4..3 never are. -/
def statusWrite (old v : Byte) (flags : Bool) : Byte :=
  if flags then (v &&& 0xE0) ||| (old &&& 0x1F) else (v &&& 0xE7) ||| (old &&& 0x18)

/-- `MemWrite` by what is selected (R58). -/
def State.writeReg (s : State) (r : FileReg) (v : Byte) (flags : Bool) : State :=
  match r with
  | .indf => s
  | .tmr0 => { s with tmr0 := v }
  | .pcl => { s with pc := s.lowTarget v }
  | .status => { s with status := statusWrite s.status v flags }
  | .fsr => { s with fsr := v &&& s.variant.fsrMask }
  | .port p => { s with lat := s.lat.set p (v &&& p.mask) }
  | .storage a => { s with ram := s.ram.write a v }

/-- The end of an instruction that wrote `r` (step (6) of R90): `pc` advances unless PCL was written. -/
def State.finish (s : State) (r : FileReg) : State := if r = .pcl then s else s.advance

/-- Steps (4) to (6) of R90 with the file register `r` as destination. -/
def State.commitFile (s : State) (r : FileReg) (y : Byte) (u : FlagUpdate) : State :=
  (((s.writeReg r y (!u.isNone)).setFlags u).finish r)

/-- Steps (4) to (6) of R90 with W as destination. -/
def State.commitW (s : State) (y : Byte) (u : FlagUpdate) : State := (({ s with w := y }).setFlags u).advance

/-- Steps (4) to (6) of R90 for the destination bit `d` (R15). -/
def State.commit (s : State) (d : Dest) (r : FileReg) (y : Byte) (u : FlagUpdate) : State :=
  match d with
  | .w => s.commitW y u
  | .f => s.commitFile r y u

/-- An instruction that reads its file operand, computes a result with flags from it, and writes the result (R90). -/
def State.fileOp (s : State) (f : FileAddr) (d : Dest) (g : Byte → Byte × FlagUpdate) : State :=
  let x := s.readReg (s.sel f)
  x.2.commit d (s.sel f) (g x.1).1 (g x.1).2

/-- A skip on the value `y` written by DECFSZ or INCFSZ: `pc` moves by 2 when it is 0, by 1 otherwise. -/
def State.advanceOrSkip (s : State) (c : Bool) : State := if c then s.skip else s.advance

/-- DECFSZ and INCFSZ (R140, R141, R144): compute, write, skip when the result is 0; with PCL as destination the form
is refused before any effect. -/
def State.countSkip (s : State) (f : FileAddr) (d : Dest) (g : Byte → Byte) : Host.Outcome State Fault Refusal :=
  let r := s.sel f
  if d = .f ∧ r = .pcl then .fault (.refusedForm "skip with PCL destination")
  else
    let x := s.readReg r
    let y := g x.1
    match d with
    | .w => .next (({ x.2 with w := y }).advanceOrSkip (decide (y = 0)))
    | .f => .next ((x.2.writeReg r y false).advanceOrSkip (decide (y = 0)))

/-- BTFSC and BTFSS (R142, R143): one read, and a skip when the selected bit is `want`. -/
def State.testSkip (s : State) (f : FileAddr) (b : BitIndex) (want : Bool) : State :=
  let x := s.readReg (s.sel f)
  x.2.advanceOrSkip (x.1.getLsbD b.toNat == want)

/-- An instruction with a literal operand whose result goes to W (formats K of R72). -/
def State.literalOp (s : State) (y : Byte) (u : FlagUpdate) : State := s.commitW y u

/-- `TRIS` of port `p` (R126): on a variant without the port the word is no instruction. -/
def State.loadTris (s : State) (p : Port) : Host.Outcome State Fault Refusal :=
  if s.variant.hasPort p then .next ({ s with tris := s.tris.set p (s.w &&& p.mask) }).advance
  else .fault (.illegalEncoding (BitVec.ofNat 12 p.fileAddr))

end Sys2Proof.Machine
end

