-- ==== Sys2Proof/Machine/Arith.lean ====
section
/-! DEFINITION. Arithmetic and logic instructions (spec/40_arith_logic.md rules R92 to R99). -/

namespace Sys2Proof.Machine

/-- SUBWF f,d (R92): `d = f - W`; C, DC, Z. -/
def execSubwf (f : FileAddr) (d : Dest) (s : State) : Host.Outcome State Fault Refusal :=
  .next (s.fileOp f d (fun x => subFlags x s.w))

/-- IORWF f,d (R93): `d = W or f`; Z. -/
def execIorwf (f : FileAddr) (d : Dest) (s : State) : Host.Outcome State Fault Refusal :=
  .next (s.fileOp f d (fun x => withZ (s.w ||| x)))

/-- ANDWF f,d (R94): `d = W and f`; Z. -/
def execAndwf (f : FileAddr) (d : Dest) (s : State) : Host.Outcome State Fault Refusal :=
  .next (s.fileOp f d (fun x => withZ (s.w &&& x)))

/-- XORWF f,d (R95): `d = W xor f`; Z. -/
def execXorwf (f : FileAddr) (d : Dest) (s : State) : Host.Outcome State Fault Refusal :=
  .next (s.fileOp f d (fun x => withZ (s.w ^^^ x)))

/-- ADDWF f,d (R96): `d = W + f`; C, DC, Z. -/
def execAddwf (f : FileAddr) (d : Dest) (s : State) : Host.Outcome State Fault Refusal :=
  .next (s.fileOp f d (fun x => addFlags x s.w))

/-- IORLW k (R97): `W = W or k`; Z. -/
def execIorlw (k : Byte) (s : State) : Host.Outcome State Fault Refusal :=
  .next (s.literalOp (s.w ||| k) (.zero (s.w ||| k)))

/-- ANDLW k (R98): `W = W and k`; Z. -/
def execAndlw (k : Byte) (s : State) : Host.Outcome State Fault Refusal :=
  .next (s.literalOp (s.w &&& k) (.zero (s.w &&& k)))

/-- XORLW k (R99): `W = W xor k`; Z. -/
def execXorlw (k : Byte) (s : State) : Host.Outcome State Fault Refusal :=
  .next (s.literalOp (s.w ^^^ k) (.zero (s.w ^^^ k)))

end Sys2Proof.Machine
end

