-- ==== Sys2Proof/Machine/BitManip.lean ====
section
/-! DEFINITION. Bit manipulation (spec/43_bit_manipulation.md rules R110 and R111). -/

namespace Sys2Proof.Machine

/-- BCF f,b (R110): clears one bit, reading and writing the whole byte; no flag. -/
def execBcf (f : FileAddr) (b : BitIndex) (s : State) : Host.Outcome State Fault Refusal :=
  .next (s.fileOp f .f (fun x => withNone (x &&& ~~~bitMask b)))

/-- BSF f,b (R111): sets one bit, reading and writing the whole byte; no flag. -/
def execBsf (f : FileAddr) (b : BitIndex) (s : State) : Host.Outcome State Fault Refusal :=
  .next (s.fileOp f .f (fun x => withNone (x ||| bitMask b)))

end Sys2Proof.Machine
end

