-- ==== Sys2Proof/Machine/ClearComp.lean ====
section
/-! DEFINITION. Clear and complement (spec/44_clear_complement.md rules R115 to R117). -/

namespace Sys2Proof.Machine

/-- CLRW (R115): `W = 0`; Z = 1. No file register is accessed. -/
def execClrw (s : State) : Host.Outcome State Fault Refusal :=
  .next (s.literalOp 0 (.zero 0))

/-- CLRF f (R116): `f = 0`; Z = 1. The file register is not read. -/
def execClrf (f : FileAddr) (s : State) : Host.Outcome State Fault Refusal :=
  .next (s.commitFile (s.sel f) 0 (.zero 0))

/-- COMF f,d (R117): `d = not f`; Z. -/
def execComf (f : FileAddr) (d : Dest) (s : State) : Host.Outcome State Fault Refusal :=
  .next (s.fileOp f d (fun x => withZ (~~~x)))

end Sys2Proof.Machine
end

