-- ==== Sys2Proof/Machine/IncDec.lean ====
section
/-! DEFINITION. Increment and decrement (spec/41_incdec.md rules R100 and R101). -/

namespace Sys2Proof.Machine

/-- DECF f,d (R100): `d = f - 1`; Z. -/
def execDecf (f : FileAddr) (d : Dest) (s : State) : Host.Outcome State Fault Refusal :=
  .next (s.fileOp f d (fun x => withZ (x - 1)))

/-- INCF f,d (R101): `d = f + 1`; Z. -/
def execIncf (f : FileAddr) (d : Dest) (s : State) : Host.Outcome State Fault Refusal :=
  .next (s.fileOp f d (fun x => withZ (x + 1)))

end Sys2Proof.Machine
end

