-- ==== Sys2Proof/Machine/Jumps.lean ====
section
/-! DEFINITION. Jumps, subroutines and system instructions (spec/47_jumps_system.md rules R130 to R135). -/

namespace Sys2Proof.Machine

/-- NOP (R130): only the advance. -/
def execNop (s : State) : Host.Outcome State Fault Refusal := .next s.advance

/-- STATUS with /TO and /PD as given and every other bit as before (R131, R132). -/
def statusToPd (st : Byte) (nTO nPD : Bool) : Byte := putBit (putBit st bitTO nTO) bitPD nPD

/-- SLEEP (R131): clears the watchdog and its prescaler, sets /TO, clears /PD, and puts the core to sleep. -/
def execSleep (s : State) : Host.Outcome State Fault Refusal :=
  .next ({ s with wdt := 0, pre := 0, status := statusToPd s.status true false, asleep := true }).advance

/-- CLRWDT (R132): clears the watchdog and its prescaler, sets /TO and /PD. -/
def execClrwdt (s : State) : Host.Outcome State Fault Refusal :=
  .next ({ s with wdt := 0, pre := 0, status := statusToPd s.status true true }).advance

/-- RETLW k (R133): `W = k; PC = TOS`; STATUS unchanged. On an empty stack nothing changes (R42). -/
def execRetlw (k : Byte) (s : State) : Host.Outcome State Fault Refusal :=
  match s.pop with
  | .ok x => .next { x.2 with w := k, pc := x.1 }
  | .error e => .fault e

/-- CALL k (R134): `TOS = PC + 1; PC = status(PA),0,k`. On a full stack nothing changes (R41). -/
def execCall (k : Byte) (s : State) : Host.Outcome State Fault Refusal :=
  match s.push (s.pcPlus 1) with
  | .ok t => .next { t with pc := s.lowTarget k }
  | .error e => .fault e

/-- GOTO k (R135): `PC = status(PA),k`. -/
def execGoto (k : BitVec 9) (s : State) : Host.Outcome State Fault Refusal :=
  .next { s with pc := s.gotoTarget k }

end Sys2Proof.Machine
end

