-- ==== Sys2Proof/Machine/LoadStore.lean ====
section
/-! DEFINITION. Load and store (spec/45_load_store.md rules R119 to R122). -/

namespace Sys2Proof.Machine

/-- MOVWF f (R120): `f = W`; no flag. The file register is not read. -/
def execMovwf (f : FileAddr) (s : State) : Host.Outcome State Fault Refusal :=
  .next (s.commitFile (s.sel f) s.w .keep)

/-- MOVF f,d (R121): `d = f`; Z. -/
def execMovf (f : FileAddr) (d : Dest) (s : State) : Host.Outcome State Fault Refusal :=
  .next (s.fileOp f d (fun x => withZ x))

/-- MOVLW k (R122): `W = k`; no flag. -/
def execMovlw (k : Byte) (s : State) : Host.Outcome State Fault Refusal :=
  .next (s.literalOp k .keep)

end Sys2Proof.Machine
end

