-- ==== Sys2Proof/Machine/OptionTris.lean ====
section
/-! DEFINITION. OPTION and TRIS (spec/46_option_tris.md rules R125 and R126). -/

namespace Sys2Proof.Machine

/-- OPTION (R125): `OPTION = W`, all 8 bits; no flag. -/
def execOption (s : State) : Host.Outcome State Fault Refusal :=
  .next ({ s with optionReg := s.w }).advance

/-- TRIS 5 (R126): loads `TRIS[A]`. -/
def execTrisA (s : State) : Host.Outcome State Fault Refusal := s.loadTris .a

/-- TRIS 6 (R126): loads `TRIS[B]`. -/
def execTrisB (s : State) : Host.Outcome State Fault Refusal := s.loadTris .b

/-- TRIS 7 (R126): loads `TRIS[C]`. -/
def execTrisC (s : State) : Host.Outcome State Fault Refusal := s.loadTris .c

/-- TRIS 8 (R79, R126): loads `TRIS[D]`. -/
def execTrisD (s : State) : Host.Outcome State Fault Refusal := s.loadTris .d

/-- TRIS 9 (R79, R126): loads `TRIS[E]`. -/
def execTrisE (s : State) : Host.Outcome State Fault Refusal := s.loadTris .e

end Sys2Proof.Machine
end

