-- ==== Sys2Proof/Machine/RotateSwap.lean ====
section
/-! DEFINITION. Rotate and swap (spec/42_rotate_swap.md rules R105 to R107). -/

namespace Sys2Proof.Machine

/-- RRF f,d (R105): nine-bit rotation right through C; C. The C that enters is the one before the instruction. -/
def execRrf (f : FileAddr) (d : Dest) (s : State) : Host.Outcome State Fault Refusal :=
  .next (s.fileOp f d (fun x => rotateRight x s.carry))

/-- RLF f,d (R106): nine-bit rotation left through C; C. -/
def execRlf (f : FileAddr) (d : Dest) (s : State) : Host.Outcome State Fault Refusal :=
  .next (s.fileOp f d (fun x => rotateLeft x s.carry))

/-- SWAPF f,d (R107): the nibbles exchanged; no flag. -/
def execSwapf (f : FileAddr) (d : Dest) (s : State) : Host.Outcome State Fault Refusal :=
  .next (s.fileOp f d (fun x => withNone (swapNibbles x)))

end Sys2Proof.Machine
end

