-- ==== Sys2Proof/Machine/Skips.lean ====
section
/-! DEFINITION. Conditional skips (spec/48_skips.md rules R140 to R144). No flag is written by any of them. -/

namespace Sys2Proof.Machine

/-- DECFSZ f,d (R140): `d = f - 1`, skip if the result is 0. -/
def execDecfsz (f : FileAddr) (d : Dest) (s : State) : Host.Outcome State Fault Refusal :=
  s.countSkip f d (fun x => x - 1)

/-- INCFSZ f,d (R141): `d = f + 1`, skip if the result is 0. -/
def execIncfsz (f : FileAddr) (d : Dest) (s : State) : Host.Outcome State Fault Refusal :=
  s.countSkip f d (fun x => x + 1)

/-- BTFSC f,b (R142): skip if the bit is 0. -/
def execBtfsc (f : FileAddr) (b : BitIndex) (s : State) : Host.Outcome State Fault Refusal :=
  .next (s.testSkip f b false)

/-- BTFSS f,b (R143): skip if the bit is 1. -/
def execBtfss (f : FileAddr) (b : BitIndex) (s : State) : Host.Outcome State Fault Refusal :=
  .next (s.testSkip f b true)

end Sys2Proof.Machine
end

