-- ==== Sys2Proof/Machine/CoreStep.lean ====
section
/-! DEFINITION. The core's part of a step: fetch, decode, execute (spec/60_exceptions.md rules R164 and R165). -/

namespace Sys2Proof.Machine

/-- The core's part of a step (R164, R165): asleep, every piece of state keeps its value; awake, the word at `pc` is
fetched, decoded and executed, and a word that spells no instruction is a fault that changes nothing (R151). -/
def coreStep (s : State) : Host.Outcome State Fault Refusal :=
  if s.asleep then .next s
  else
    match decode s.variant s.fetch with
    | .ok i => exec i s
    | .error _ => .fault (.illegalEncoding s.fetch)

end Sys2Proof.Machine
end

