-- ==== Sys2Proof/Machine/Reset.lean ====
section
/-! DEFINITION. Taking a reset (spec/70_reset_and_hazards.md rules R170 to R172): the one event that breaks the
instruction stream, as one shared operation. -/

namespace Sys2Proof.Machine

/-- Whether a data address is the address of a storage byte (R38): the address under which `Sel` gives it. -/
def isStorage (v : Variant) (a : Nat) : Bool :=
  decide (a < 2 ^ v.fsrBits) && decide (selectReg v (BitVec.ofNat 8 a) = .storage a)

/-- The data addresses of the storage bytes of a variant (R38), in rising order. -/
def storageAddrs (v : Variant) : List Nat := (List.range 256).filter (isStorage v)

/-- Data memory after a reset event: every storage byte a free value (R171). -/
def ramAfterReset (v : Variant) (n : Nat) : Memory :=
  (storageAddrs v).foldl (fun m a => m.write a (Config.resetStorage a n)) []

/-- STATUS after a reset event (R170, R172): bits 7..5 zero, /TO and /PD as given, Z, DC, C free. -/
def statusAfterReset (nTO nPD : Bool) (n : Nat) : Byte :=
  0#3 ++ BitVec.ofBool nTO ++ BitVec.ofBool nPD ++ Config.resetFlags n

/-- `Reset(cause)` with the values of /TO and /PD already chosen (R170): what the reset line names takes its stated
value, `sp` becomes 0, everything else is arbitrary (R171), and nothing is saved (R155). The arguments of the model
(variant, `WDT_ENABLED`, program memory) and the coming answers of the environment stay. -/
def State.resetWith (s : State) (nTO nPD : Bool) : State :=
  { s with
    pc := s.variant.resetPc
    status := statusAfterReset nTO nPD s.draws
    optionReg := 0xFF
    tris := PortFile.build s.variant.portMask
    asleep := false
    sp := 0
    w := Config.resetW s.draws
    fsr := Config.resetFsr s.draws &&& s.variant.fsrMask
    tmr0 := Config.resetTmr0 s.draws
    lat := PortFile.build (fun p => Config.resetLatch p s.draws &&& s.variant.portMask p)
    ram := ramAfterReset s.variant s.draws
    stk0 := Config.resetStack 0 s.draws &&& s.variant.pcMask
    stk1 := Config.resetStack 1 s.draws &&& s.variant.pcMask
    wdt := Config.resetWdt s.draws
    pre := Config.resetPre s.draws
    resetLines := .idle
    draws := s.draws + 1 }

/-- The reset event with the causes `c :: cs` (R170, R172). With several at once /TO and /PD are any of the values the
causes would give, and nothing else depends on the cause (R154). -/
def State.takeReset (s : State) (c : ResetCause) (cs : List ResetCause) : State :=
  s.resetWith (s.toPdAfter (pickCause c cs (Config.whichCauseTo s.draws))).1
    (s.toPdAfter (pickCause c cs (Config.whichCausePd s.draws))).2

end Sys2Proof.Machine
end

