-- ==== Sys2Proof/Machine/Step.lean ====
section
/-! DEFINITION. One step of the machine (spec/60_exceptions.md rule R165). -/

namespace Sys2Proof.Machine

/-- One step: at the instruction boundary a reset that the environment causes comes first (R153, R165), otherwise the
core makes its step. -/
def step (s : State) : Host.Outcome State Fault Refusal :=
  match s.resetCauses with
  | c :: cs => .next (s.takeReset c cs)
  | [] => coreStep s.passBoundary

/-- The state with the instruction whose bits are `w` stored where the next step fetches. -/
def State.withFetchWord (s : State) (_nbits w : Nat) : State := s.placeWord (BitVec.ofNat 12 w)

end Sys2Proof.Machine
end

