-- ==== Sys2Proof/Safety.lean ====
section
/-! DEFINITION. The terms claims use: the invariant of a well-formed state, what "everything else is unchanged" means
piece by piece, and the state an instruction with a file operand leaves, said register by register and in natural
numbers, without the functions the meanings are written with. -/

namespace Sys2Proof.Machine

/-- A state the machine can be in: every register within its width on the variant (R22, R30, R34, R37, R40), the
stack count within the stack, both memories canonical and within their address spaces (R38, R51). -/
def StateInv (s : State) : Prop :=
  s.pc.toNat < 2 ^ s.variant.pcBits
    ∧ s.stk0.toNat < 2 ^ s.variant.pcBits
    ∧ s.stk1.toNat < 2 ^ s.variant.pcBits
    ∧ s.sp ≤ 2
    ∧ s.fsr.toNat < 2 ^ s.variant.fsrBits
    ∧ (∀ p, s.tris.get p &&& s.variant.portMask p = s.tris.get p)
    ∧ (∀ p, s.lat.get p &&& s.variant.portMask p = s.lat.get p)
    ∧ s.ram.wf = true
    ∧ (∀ c ∈ s.ram, isStorage s.variant c.1 = true)
    ∧ s.prog.wf = true
    ∧ (∀ c ∈ s.prog, c.1 < 2 ^ s.variant.pcBits)

/-- A safe outcome: the machine goes on. -/
def Completes (o : Host.Outcome State Fault Refusal) : Prop := ∃ t, o = .next t

/-! ### Frames -/

/-- The arguments of the model (R7, R8, R51) are the same. -/
def SameArguments (s t : State) : Prop :=
  t.variant = s.variant ∧ t.wdtEnabled = s.wdtEnabled ∧ t.prog = s.prog

/-- The return stack (R40) is the same. -/
def SameStack (s t : State) : Prop := t.stk0 = s.stk0 ∧ t.stk1 = s.stk1 ∧ t.sp = s.sp

/-- The registers outside the file (R33, R34) are the same. -/
def SameOutside (s t : State) : Prop := t.optionReg = s.optionReg ∧ t.tris = s.tris

/-- The watchdog counter and its prescaler (R43) are the same. -/
def SameWatchdog (s t : State) : Prop := t.wdt = s.wdt ∧ t.pre = s.pre

/-- The file registers other than PCL and STATUS are the same: FSR, TMR0, the latches and every storage byte. -/
def SameFile (s t : State) : Prop :=
  t.fsr = s.fsr ∧ t.tmr0 = s.tmr0 ∧ t.lat = s.lat ∧ ∀ a, t.ram.read a = s.ram.read a

/-- The model's own input fields are the same: no answer of the environment was used up. -/
def SameInputs (s t : State) : Prop := t.resetLines = s.resetLines ∧ t.answers = s.answers ∧ t.draws = s.draws

/-- `(pc + n) mod 2^PC_BITS` in natural numbers (R24). -/
def nextAddr (s : State) (n : Nat) : Nat := (s.pc.toNat + n) % 2 ^ s.variant.pcBits

/-- `(PA1 : PA0 : k) mod 2^PC_BITS` in natural numbers, for an offset `k` in the page (R23, R134, R135). -/
def pageAddr (s : State) (k : Nat) : Nat := (512 * (s.status.toNat / 32 % 4) + k) % 2 ^ s.variant.pcBits

/-! ### The effect of an instruction with a file operand -/

/-- The file register that receives the result: the selected one for `d = 1`, none for `d = 0`. -/
def destReg (d : Dest) (r : FileReg) : Option FileReg := if d = .f then some r else none

/-- After a write of `y` to `r` (or to no file register): FSR, TMR0, each latch and each storage byte (R58). -/
def FileHolds (s t : State) (r : Option FileReg) (y : Byte) : Prop :=
  t.fsr = (if r = some .fsr then y &&& s.variant.fsrMask else s.fsr)
    ∧ t.tmr0 = (if r = some .tmr0 then y else s.tmr0)
    ∧ (∀ p, t.lat.get p = if r = some (.port p) then y &&& p.mask else s.lat.get p)
    ∧ (∀ a, t.ram.read a = if r = some (.storage a) then y else s.ram.read a)

/-- One of the flags Z, DC, C, bit `i` of STATUS: the value the instruction gives it, or else what a plain write to STATUS
puts there, or else its old value (R26, R29). -/
def FlagHolds (s t : State) (i : Nat) (written : Option Bool) (plainWrite : Bool) (y : Byte) : Prop :=
  t.status.getLsbD i =
    match written with
    | some x => x
    | none => if plainWrite then y.getLsbD i else s.status.getLsbD i

/-- STATUS after an instruction that writes `y` to `r` and gives the flags the values `c`, `dc`, `z` (none: not
written): bits 7..5 from a write to STATUS, bits 4..3 never, bits 2..0 by `FlagHolds`, where the data reaches them only
when the instruction writes no flag at all (R29). -/
def StatusHolds (s t : State) (r : Option FileReg) (y : Byte) (c dc z : Option Bool) : Prop :=
  let plain := decide (r = some .status ∧ c = none ∧ dc = none ∧ z = none)
  t.status.extractLsb' 5 3 = (if r = some .status then y.extractLsb' 5 3 else s.status.extractLsb' 5 3)
    ∧ t.status.getLsbD 4 = s.status.getLsbD 4
    ∧ t.status.getLsbD 3 = s.status.getLsbD 3
    ∧ FlagHolds s t 2 z plain y
    ∧ FlagHolds s t 1 dc plain y
    ∧ FlagHolds s t 0 c plain y

/-- What no instruction with a file operand or a literal touches: the arguments, the stack, the registers outside the
file, the watchdog, sleep, and the reset lines. -/
def Untouched (s t : State) : Prop :=
  SameArguments s t ∧ SameStack s t ∧ SameOutside s t ∧ SameWatchdog s t ∧ t.asleep = s.asleep
    ∧ t.resetLines = s.resetLines

/-- The state `t` after an instruction at `s` that writes `y` to W (`r` none) or to the file register `r`, gives the
flags the values `c`, `dc`, `z`, and goes on `n` words later unless it wrote PCL (R90). -/
def Leaves (s t : State) (r : Option FileReg) (y : Byte) (c dc z : Option Bool) (n : Nat) : Prop :=
  t.w = (if r = none then y else s.w)
    ∧ FileHolds s t r y
    ∧ StatusHolds s t r y c dc z
    ∧ t.pc.toNat = (if r = some .pcl then pageAddr s y.toNat else nextAddr s n)
    ∧ Untouched s t

/-- The file operand `f` was read once: `t` has used up exactly the answers of the environment that this read uses up
(none, unless the operand is a port or TMR0). -/
def InputsAfterRead (s t : State) (f : FileAddr) : Prop :=
  t.answers = (s.readReg (s.sel f)).2.answers ∧ t.draws = (s.readReg (s.sel f)).2.draws

/-- No answer of the environment was used up. -/
def InputsUnread (s t : State) : Prop := t.answers = s.answers ∧ t.draws = s.draws

/-- The destination bit as a number. -/
def destNum : Dest → Nat
  | .w => 0
  | .f => 1

/-- The word with number `n` is the instruction `i`, on every variant, both ways (R74). -/
def IsWord (n : Nat) (i : Instr) : Prop :=
  n < 4096 ∧ encode i = BitVec.ofNat 12 n ∧ ∀ v, decode v (BitVec.ofNat 12 n) = .ok i

/-- The TRIS instruction of a port (R126). -/
def trisInstr : Port → Instr
  | .a => .trisA
  | .b => .trisB
  | .c => .trisC
  | .d => .trisD
  | .e => .trisE

/-! ### Observation -/

/-- A state with everything erased that no instruction can read back: OPTION, TRIS, the latches, the TMR0 byte, the
watchdog and its prescaler (R31, R33, R34, R37, R43, R45). -/
def hideOutputs (s : State) : State :=
  { s with
    optionReg := 0
    tris := ⟨0, 0, 0, 0, 0⟩
    lat := ⟨0, 0, 0, 0, 0⟩
    tmr0 := 0
    wdt := 0
    pre := 0 }

/-- Two outcomes a program cannot tell apart at once: next states that differ at most in what no instruction reads, or
the same stop. -/
def SameToProgram (o o' : Host.Outcome State Fault Refusal) : Prop :=
  match o, o' with
  | .next t, .next t' => hideOutputs t = hideOutputs t'
  | .fault e, .fault e' => e = e'
  | .refused e, .refused e' => e = e'
  | _, _ => False

end Sys2Proof.Machine
end

