-- ==== Sys2Proof/Certificates/Slice0/Obligations.lean ====
section
/-! DEFINITION. The statements for the provers. Each docstring names the rule of spec/ it formalises. The clauses
`InputsAfterRead`, `InputsUnread` and `SameInputs` are about the model's own fields `answers`, `draws` and `resetLines`
(log entries 8 and 10, the model's choice); no rule is cited for them. -/

open Sys2Proof Sys2Proof.Machine

/-! ### Encoding -/

/-- R77, R79, R126: decoding the word of an instruction that the variant has gives the instruction back. -/
def Obligations.DecodeOfEncodeIsTheInstruction : Prop :=
  ∀ (v : Variant) (i : Instr), i.wellFormed v = true → decode v (encode i) = .ok i

/-- R77, R81: a word the decoder accepts is the word of the instruction it gives, and the variant has that
instruction; so no bit of an accepted word is ignored. -/
def Obligations.EncodeOfDecodeIsTheWord : Prop :=
  ∀ (v : Variant) (w : InstrWord) (i : Instr), decode v w = .ok i → encode i = w ∧ i.wellFormed v = true

/-- R78: exactly the listed words spell no instruction. -/
def Obligations.UnassignedWordsAreExactlyTheListedOnes : Prop :=
  ∀ (v : Variant) (w : InstrWord),
    (∀ i, decode v w ≠ .ok i) ↔
      w.toNat = 0x001 ∨ (0x00A ≤ w.toNat ∧ w.toNat ≤ 0x01F) ∨ (0x041 ≤ w.toNat ∧ w.toNat ≤ 0x05F)
        ∨ (w.toNat = 0x007 ∧ v = .v54) ∨ ((w.toNat = 0x008 ∨ w.toNat = 0x009) ∧ v ≠ .v59)

/-- R74: ten words, at least one of each format, written out in binary from the Code Tree. -/
def Obligations.SampleWordsDecodeAsTheCodeTreeSays : Prop :=
  decode .v57 0b000000000011#12 = .ok .sleep
    ∧ decode .v57 0b000000000110#12 = .ok .trisB
    ∧ decode .v57 0b000000110000#12 = .ok (.movwf 0x10)
    ∧ decode .v57 0b000111110001#12 = .ok (.addwf 0x11 .f)
    ∧ decode .v57 0b001011010000#12 = .ok (.decfsz 0x10 .w)
    ∧ decode .v57 0b010110100011#12 = .ok (.bsf 3 5)
    ∧ decode .v57 0b100001011011#12 = .ok (.retlw 0x5B)
    ∧ decode .v57 0b100100010000#12 = .ok (.call 0x10)
    ∧ decode .v57 0b101110100101#12 = .ok (.goto 0x1A5)
    ∧ decode .v57 0b111110101111#12 = .ok (.xorlw 0xAF)

/-! ### The step, sleep and reset -/

/-- R165: awake, with no reset asserted and no watchdog enabled, a step at a word that decodes to `i` is `i`. -/
def Obligations.StepRunsTheDecodedInstruction : Prop :=
  ∀ (s : State) (i : Instr), s.resetLines = .idle → s.wdtEnabled = false → s.asleep = false →
    decode s.variant (s.prog.read s.pc.toNat) = .ok i → step s = exec i s

/-- R159, R165, with the watchdog enabled and no reset asserted: the free value of this boundary decides between a
watchdog reset and the instruction; the step has used up one free value before the instruction (log entry 12, the
model's choice). -/
def Obligations.StepWithEnabledWatchdogRunsOrResets : Prop :=
  ∀ (s : State) (i : Instr), s.resetLines = .idle → s.wdtEnabled = true → s.asleep = false →
    decode s.variant (s.prog.read s.pc.toNat) = .ok i →
      step s = if Config.watchdogExpires s.draws then .next (s.takeReset .wdt [])
        else exec i { s with draws := s.draws + 1 }

/-- The word placed for the next fetch is the one the next step runs, from any state whose watchdog is off. -/
def Obligations.PlacedWordIsTheNextInstruction : Prop :=
  ∀ (s : State) (i : Instr), s.wdtEnabled = false → i.wellFormed s.variant = true →
    step (s.withFetchWord 12 (encode i).toNat) = exec i (s.withFetchWord 12 (encode i).toNat)

/-- R151: a word that spells no instruction is a fault that records the word; there is no next state. With the watchdog
enabled the same fault, when the watchdog does not expire at this boundary; that a free value of the boundary decides
this is the model's choice (log entry 12). -/
def Obligations.UnassignedWordFaultsWithTheWord : Prop :=
  ∀ s : State, s.resetLines = .idle → s.asleep = false →
    (∀ i, decode s.variant (s.prog.read s.pc.toNat) ≠ .ok i) →
      (s.wdtEnabled = false → step s = .fault (.illegalEncoding (s.prog.read s.pc.toNat)))
        ∧ (s.wdtEnabled = true →
            step s = if Config.watchdogExpires s.draws then .next (s.takeReset .wdt [])
              else .fault (.illegalEncoding (s.prog.read s.pc.toNat)))

/-- R44: SLEEP sets `asleep`, every reset clears it, and while it is true a step that is no reset executes nothing:
every field keeps its value, except the model's own count of free values. That a step asleep answers the same state is
the model's choice (log entry 7). -/
def Obligations.AsleepIsSetBySleepClearedByResetAndIdle : Prop :=
  (∀ s : State, ∃ t, exec .sleep s = .next t ∧ t.asleep = true)
    ∧ (∀ (s : State) (c : ResetCause) (cs : List ResetCause), (s.takeReset c cs).asleep = false)
    ∧ (∀ s : State, s.asleep = true → s.resetCauses = [] →
        ∃ n, step s = .next { s with draws := n } ∧ (s.wdtEnabled = false → n = s.draws))

/-- R46, R170, R173: what the reset line names has its stated value in the state that starts a run, on every variant.
That STATUS is the source's 0x1F, where the spec admits any Z, DC, C, is the model's choice (log entry 2), as are V59
(entry 1) and the 0 of a port the variant lacks (entry 20). -/
def Obligations.InitialStateHasTheResetLineValues : Prop :=
  ∀ v : Variant,
    (State.resetOf v).pc.toNat = 2 ^ v.pcBits - 1
      ∧ (State.resetOf v).status = 0x1F
      ∧ (State.resetOf v).optionReg = 0xFF
      ∧ (∀ p, (State.resetOf v).tris.get p = if v.hasPort p then p.mask else 0)
      ∧ (State.resetOf v).asleep = false
      ∧ (State.resetOf v).sp = 0
      ∧ State.reset = State.resetOf .v59

/-- The state that starts a run meets the invariant, on every variant. -/
def Obligations.InitialStateMeetsTheInvariant : Prop := ∀ v : Variant, StateInv (State.resetOf v)

/-- R170, R155: what a reset event does to the state the reset line names, whatever the causes; the arguments of the
model and the coming answers of the environment stay (the model's choice, log entry 15), and the byte of a port the
variant lacks is 0 (entry 20). -/
def Obligations.ResetEventGivesTheResetLineValues : Prop :=
  ∀ (s : State) (c : ResetCause) (cs : List ResetCause),
    let t := s.takeReset c cs
    t.pc.toNat = 2 ^ s.variant.pcBits - 1
      ∧ t.status.extractLsb' 5 3 = 0
      ∧ t.optionReg = 0xFF
      ∧ (∀ p, t.tris.get p = if s.variant.hasPort p then p.mask else 0)
      ∧ t.asleep = false
      ∧ t.sp = 0
      ∧ SameArguments s t
      ∧ t.answers = s.answers

/-- R172, R27: /TO and /PD after a reset of one cause. Which of the two outcomes an /MCLR reset of the running machine
has is a free value (log entry 13). -/
def Obligations.ResetEventSetsToAndPdByCause : Prop :=
  ∀ s : State,
    ((s.takeReset .powerOn []).status.getLsbD 4 = true ∧ (s.takeReset .powerOn []).status.getLsbD 3 = true)
      ∧ (((s.takeReset .mclr []).status.getLsbD 4 = true ∧ (s.takeReset .mclr []).status.getLsbD 3 = true)
          ∨ ((s.takeReset .mclr []).status.getLsbD 4 = s.status.getLsbD 4
              ∧ (s.takeReset .mclr []).status.getLsbD 3 = s.status.getLsbD 3))
      ∧ ((s.takeReset .mclrSleep []).status.getLsbD 4 = true ∧ (s.takeReset .mclrSleep []).status.getLsbD 3 = false)
      ∧ ((s.takeReset .wdt []).status.getLsbD 4 = false ∧ (s.takeReset .wdt []).status.getLsbD 3 = true)
      ∧ ((s.takeReset .wdtSleep []).status.getLsbD 4 = false ∧ (s.takeReset .wdtSleep []).status.getLsbD 3 = false)

/-- R153, R159, R165, R172: the causes of a reset at this boundary, each named by whether the machine sleeps; whenever
power-on, /MCLR or the time-out of an enabled watchdog is asserted, alone or together, the step is the reset with those
causes, whatever the word at `pc` is and also while asleep; and with one of them asserted alone it is the reset of that
cause. That resets land at boundaries and come by `resetLines` is the model's choice (log entry 8), and so is the free
value by which an enabled watchdog also expires (log entry 12). -/
def Obligations.AssertedResetHappensAtTheBoundary : Prop :=
  (∀ s : State,
      (.powerOn ∈ s.resetCauses ↔ s.resetLines.powerOn = true)
        ∧ (.mclr ∈ s.resetCauses ↔ s.resetLines.mclr = true ∧ s.asleep = false)
        ∧ (.mclrSleep ∈ s.resetCauses ↔ s.resetLines.mclr = true ∧ s.asleep = true)
        ∧ (.wdt ∈ s.resetCauses ↔ s.wdtEnabled = true ∧ s.asleep = false
            ∧ (s.resetLines.wdtTimeout = true ∨ Config.watchdogExpires s.draws = true))
        ∧ (.wdtSleep ∈ s.resetCauses ↔ s.wdtEnabled = true ∧ s.asleep = true
            ∧ (s.resetLines.wdtTimeout = true ∨ Config.watchdogExpires s.draws = true)))
    ∧ (∀ s : State, s.resetLines.powerOn = true ∨ s.resetLines.mclr = true
          ∨ (s.wdtEnabled = true ∧ s.resetLines.wdtTimeout = true) →
        ∃ c cs, s.resetCauses = c :: cs ∧ step s = .next (s.takeReset c cs))
    ∧ (∀ s : State, s.wdtEnabled = false → s.resetLines = ⟨true, false, false⟩ →
        step s = .next (s.takeReset .powerOn []))
    ∧ (∀ s : State, s.wdtEnabled = false → s.resetLines = ⟨false, true, false⟩ →
        step s = .next (s.takeReset (if s.asleep then .mclrSleep else .mclr) []))
    ∧ (∀ s : State, s.wdtEnabled = true → s.resetLines = ⟨false, false, true⟩ →
        step s = .next (s.takeReset (if s.asleep then .wdtSleep else .wdt) []))

/-- R154: after a reset with several causes each of /TO and /PD has the value that one of the causes would give alone, and
the rest of the state does not depend on the causes. Which cause gives which bit is a free value, each bit on its own
(log entry 14, the model's choice); the values one cause gives are those of `ResetEventSetsToAndPdByCause`. -/
def Obligations.SimultaneousCausesGiveToAndPdOfSomeCause : Prop :=
  ∀ (s : State) (c : ResetCause) (cs : List ResetCause),
    (∃ x ∈ c :: cs, (s.takeReset c cs).status.getLsbD 4 = (s.takeReset x []).status.getLsbD 4)
      ∧ (∃ x ∈ c :: cs, (s.takeReset c cs).status.getLsbD 3 = (s.takeReset x []).status.getLsbD 3)
      ∧ (∀ x ∈ c :: cs,
          { s.takeReset c cs with status := (s.takeReset x []).status } = s.takeReset x []
            ∧ ∀ i, i ≠ 4 → i ≠ 3 →
              (s.takeReset c cs).status.getLsbD i = (s.takeReset x []).status.getLsbD i)

/-- R159: with `WDT_ENABLED` false the watchdog is never a cause of a reset, whatever the environment asserts; and when it
asserts neither power-on nor /MCLR there is no reset at all and the step is the core's. -/
def Obligations.DisabledWatchdogNeverResets : Prop :=
  ∀ s : State, s.wdtEnabled = false →
    (.wdt ∉ s.resetCauses ∧ .wdtSleep ∉ s.resetCauses)
      ∧ (s.resetLines.powerOn = false → s.resetLines.mclr = false → s.resetCauses = [] ∧ step s = coreStep s)

/-! ### Whole-machine properties -/

/-- Every step, of the core or a reset, keeps the invariant (R22, R30, R34, R37, R38, R40, R51). -/
def Obligations.EveryStepKeepsTheInvariant : Prop :=
  ∀ s t : State, StateInv s → step s = .next t → StateInv t

/-- R51, R69: no step changes program memory. That the variant and `WDT_ENABLED`, arguments of the model (R7, R8, R159),
are fields which no step changes, an instruction or a reset, is the model's choice (log entries 5 and 15). -/
def Obligations.NoStepChangesProgramMemory : Prop :=
  ∀ s t : State, step s = .next t → SameArguments s t

/-- R150, R17: an instruction stops only where the spec raises a fault, with that fault; otherwise it completes. -/
def Obligations.InstructionsStopOnlyWhereTheSpecRaises : Prop :=
  ∀ (i : Instr) (s : State),
    (∃ t, exec i s = .next t)
      ∨ ((∃ k, i = .call k) ∧ 2 ≤ s.sp ∧ exec i s = .fault .stackOverflow)
      ∨ ((∃ k, i = .retlw k) ∧ s.sp = 0 ∧ exec i s = .fault .stackUnderflow)
      ∨ ((∃ f, (i = .decfsz f .f ∨ i = .incfsz f .f) ∧ s.sel f = .pcl)
          ∧ exec i s = .fault (.refusedForm "skip with PCL destination"))
      ∨ ((∃ p, i = trisInstr p ∧ s.variant.hasPort p = false ∧ exec i s = .fault (.illegalEncoding (encode i))))

/-- R27, R166: among the instructions only SLEEP and CLRWDT change /TO or /PD. -/
def Obligations.OnlySleepAndClrwdtChangeToAndPd : Prop :=
  ∀ (i : Instr) (s t : State), exec i s = .next t → i ≠ .sleep → i ≠ .clrwdt →
    t.status.getLsbD 4 = s.status.getLsbD 4 ∧ t.status.getLsbD 3 = s.status.getLsbD 3

/-- R40: the return stack is changed by CALL and RETLW only. -/
def Obligations.OnlyCallAndRetlwTouchTheStack : Prop :=
  ∀ (i : Instr) (s t : State), exec i s = .next t → (∀ k, i ≠ .call k) → (∀ k, i ≠ .retlw k) → SameStack s t

/-- R33, R34, R43, R44: OPTION is written by OPTION only, the TRIS registers by TRIS only, the watchdog and its
prescaler by SLEEP and CLRWDT only, `asleep` by SLEEP only. -/
def Obligations.EachRegisterOutsideTheFileHasItsOwnWriter : Prop :=
  ∀ (i : Instr) (s t : State), exec i s = .next t →
    (i ≠ .option → t.optionReg = s.optionReg)
      ∧ ((∀ p, i ≠ trisInstr p) → t.tris = s.tris)
      ∧ (i ≠ .sleep → i ≠ .clrwdt → SameWatchdog s t)
      ∧ (i ≠ .sleep → t.asleep = s.asleep)

/-- R45, R31: OPTION, TRIS, the latches, the TMR0 byte, the watchdog and its prescaler cannot be observed by a program:
two states that differ only there make steps that differ only there. -/
def Obligations.WriteOnlyStateNeverReachesTheProgram : Prop :=
  ∀ s s' : State, hideOutputs s = hideOutputs s' → SameToProgram (step s) (step s')

/-- R64, R180: a CALL enters the low half of a page, and so does every write to PCL by an instruction that completes. -/
def Obligations.CallAndComputedJumpTargetsHaveBit8Clear : Prop :=
  (∀ (s t : State) (k : Byte), exec (.call k) s = .next t → t.pc.getLsbD 8 = false)
    ∧ (∀ (s t : State) (f : FileAddr), s.sel f = .pcl →
        (∀ b, exec (.bcf f b) s = .next t ∨ exec (.bsf f b) s = .next t → t.pc.getLsbD 8 = false)
          ∧ (exec (.movwf f) s = .next t ∨ exec (.clrf f) s = .next t ∨ exec (.addwf f .f) s = .next t
              ∨ exec (.subwf f .f) s = .next t ∨ exec (.iorwf f .f) s = .next t ∨ exec (.andwf f .f) s = .next t
              ∨ exec (.xorwf f .f) s = .next t ∨ exec (.movf f .f) s = .next t ∨ exec (.comf f .f) s = .next t
              ∨ exec (.incf f .f) s = .next t ∨ exec (.decf f .f) s = .next t ∨ exec (.rrf f .f) s = .next t
              ∨ exec (.rlf f .f) s = .next t ∨ exec (.swapf f .f) s = .next t → t.pc.getLsbD 8 = false))

/-! ### Operands -/

/-- R55, R56, R54: what a file operand selects. Common addresses 1 to 4 are TMR0, PCL, STATUS, FSR whatever the bank
bits; ports where the variant has them; 10..1F is the storage byte of the bank that the upper FSR bits choose; `f = 0`
selects as the low bits of FSR do when bit 4 is clear, and the storage byte at FSR when it is set. -/
def Obligations.FileOperandSelection : Prop :=
  ∀ (s : State) (f : FileAddr),
    let fsr := s.fsr.toNat % 2 ^ s.variant.fsrBits
    let n := if f = 0 then fsr % 32 else f.toNat
    (n = 0 → s.sel f = .indf) ∧ (n = 1 → s.sel f = .tmr0) ∧ (n = 2 → s.sel f = .pcl) ∧ (n = 3 → s.sel f = .status)
      ∧ (n = 4 → s.sel f = .fsr)
      ∧ (∀ p, n = p.fileAddr → s.variant.hasPort p = true → s.sel f = .port p)
      ∧ (s.variant.lastPort < n → n < 16 → s.sel f = .storage n)
      ∧ (16 ≤ n → s.sel f = .storage (32 * (fsr / 32) + n))

/-- R57: what MOVF f,0 loads into W from each kind of file register: a read of each, byte by byte. The environment's
answer is the next of `answers`, or else a free value (log entries 10 and 11, the model's choice). -/
def Obligations.MovfLoadsWhatTheSelectedRegisterReads : Prop :=
  ∀ (s : State) (f : FileAddr), ∃ t, exec (.movf f .w) s = .next t
    ∧ (s.sel f = .indf → t.w = 0)
    ∧ (s.sel f = .tmr0 → t.w = s.answers.headD (Config.timerDraw s.draws))
    ∧ (s.sel f = .pcl → t.w.toNat = nextAddr s 1 % 256)
    ∧ (s.sel f = .status → t.w = s.status)
    ∧ (s.sel f = .fsr → ∀ i < 8, t.w.getLsbD i = if i < s.variant.fsrBits then s.fsr.getLsbD i else true)
    ∧ (∀ p, s.sel f = .port p → ∀ i, t.w.getLsbD i
          = (p.mask.getLsbD i && (s.answers.headD (Config.pinRead p s.draws)).getLsbD i))
    ∧ (∀ a, s.sel f = .storage a → t.w = s.ram.read a)

/-- R61: a read changes nothing but the model's own fields `answers` and `draws`, and of TMR0 and the ports apart it
changes nothing at all. A read of TMR0 or a port uses up exactly one answer: the first of `answers`, or, when there is none,
one free value (log entries 10 and 11, the model's choice). -/
def Obligations.ReadsHaveNoEffectOnTheMachine : Prop :=
  ∀ (s : State) (r : FileReg),
    let t := (s.readReg r).2
    { t with answers := s.answers, draws := s.draws } = s
      ∧ (r ≠ .tmr0 → (∀ p, r ≠ .port p) → t = s)
      ∧ ((r = .tmr0 ∨ ∃ p, r = .port p) →
          t.answers = s.answers.tail ∧ t.draws = if s.answers = [] then s.draws + 1 else s.draws)

/-- R38: a storage byte returns on a read the value last written to it: MOVWF then MOVF through the same file address,
at any bank. -/
def Obligations.StorageReturnsWhatWasStored : Prop :=
  ∀ (s : State) (f : FileAddr) (a : Nat) (x : Byte), s.sel f = .storage a →
    ∃ t u, exec (.movwf f) s = .next t ∧ exec (.movf f .w) { t with w := x } = .next u ∧ u.w = s.w

/-- R55, R56: the banks are separate bytes: a store to 10..1F under one bank leaves what every other bank reads there. -/
def Obligations.BanksDoNotOverlap : Prop :=
  ∀ (s t : State) (f g : FileAddr) (fsr' : Byte), 16 ≤ f.toNat → 16 ≤ g.toNat → exec (.movwf f) s = .next t →
    (s.fsr.toNat % 2 ^ s.variant.fsrBits / 32 ≠ fsr'.toNat % 2 ^ s.variant.fsrBits / 32 ∨ f ≠ g) →
      ({ t with fsr := fsr' } : State).fileValue g = ({ s with fsr := fsr' } : State).fileValue g

/-- R59: INDF selected through itself reads 0 and stores nothing; the rest of the instruction happens. -/
def Obligations.IndfThroughItselfReadsZeroAndStoresNothing : Prop :=
  ∀ s : State, s.fsr.toNat % 32 = 0 →
    (∃ t, exec (.movf 0 .w) s = .next t ∧ t.w = 0 ∧ t.status.getLsbD 2 = true)
      ∧ (∃ t, exec (.movwf 0) s = .next t ∧ SameFile s t ∧ t.status = s.status ∧ t.pc.toNat = nextAddr s 1)
      ∧ (∃ t, exec (.incf 0 .f) s = .next t ∧ SameFile s t ∧ t.w = s.w ∧ t.status.getLsbD 2 = false)

/-- R29: a write to STATUS by instructions that write no flag (MOVWF, BSF, BCF), by one that writes Z alone (CLRF), and by
the two that write all three (ADDWF, SUBWF): which bits come from where. -/
def Obligations.StatusWritesKeepToAndPd : Prop :=
  (∀ s : State, ∃ t, exec (.movwf 3) s = .next t ∧ t.status = (s.w &&& 0xE7) ||| (s.status &&& 0x18))
    ∧ (∀ s : State, ∃ t, exec (.clrf 3) s = .next t ∧ t.status = (s.status &&& 0x1B) ||| 0x04)
    ∧ (∀ (s : State) (b : BitIndex), ∃ t, exec (.bsf 3 b) s = .next t
        ∧ t.status = if b = 3 ∨ b = 4 then s.status else s.status ||| (1#8 <<< b.toNat))
    ∧ (∀ (s : State) (b : BitIndex), ∃ t, exec (.bcf 3 b) s = .next t
        ∧ t.status = if b = 3 ∨ b = 4 then s.status else s.status &&& ~~~(1#8 <<< b.toNat))
    ∧ (∀ s : State, ∃ t, exec (.addwf 3 .f) s = .next t ∧
        let x := s.status.toNat
        let w := s.w.toNat
        t.status.extractLsb' 5 3 = (BitVec.ofNat 8 (x + w)).extractLsb' 5 3
          ∧ t.status.getLsbD 4 = s.status.getLsbD 4 ∧ t.status.getLsbD 3 = s.status.getLsbD 3
          ∧ t.status.getLsbD 2 = decide ((x + w) % 256 = 0)
          ∧ t.status.getLsbD 1 = decide (16 ≤ x % 16 + w % 16)
          ∧ t.status.getLsbD 0 = decide (256 ≤ x + w))
    ∧ (∀ s : State, ∃ t, exec (.subwf 3 .f) s = .next t ∧
        let x := s.status.toNat
        let w := s.w.toNat
        t.status.extractLsb' 5 3 = (BitVec.ofNat 8 (256 + x - w)).extractLsb' 5 3
          ∧ t.status.getLsbD 4 = s.status.getLsbD 4 ∧ t.status.getLsbD 3 = s.status.getLsbD 3
          ∧ t.status.getLsbD 2 = decide (x = w)
          ∧ t.status.getLsbD 1 = decide (w % 16 ≤ x % 16)
          ∧ t.status.getLsbD 0 = decide (w ≤ x))

/-! ### Arithmetic and logic -/

/-- R96: ADDWF. -/
def Obligations.AddwfAddsWithFlags : Prop :=
  ∀ (s : State) (f : FileAddr) (d : Dest),
    IsWord (0x1C0 + 32 * destNum d + f.toNat) (.addwf f d)
      ∧ ∃ t, exec (.addwf f d) s = .next t ∧
        let x := (s.fileValue f).toNat
        let sum := x + s.w.toNat
        Leaves s t (destReg d (s.sel f)) (BitVec.ofNat 8 sum) (some (decide (256 ≤ sum)))
            (some (decide (16 ≤ x % 16 + s.w.toNat % 16))) (some (decide (sum % 256 = 0))) 1
          ∧ InputsAfterRead s t f

/-- R92: SUBWF, the file register minus W; C and DC are 1 when there is no borrow. -/
def Obligations.SubwfSubtractsWFromTheFileRegister : Prop :=
  ∀ (s : State) (f : FileAddr) (d : Dest),
    IsWord (0x080 + 32 * destNum d + f.toNat) (.subwf f d)
      ∧ ∃ t, exec (.subwf f d) s = .next t ∧
        let x := (s.fileValue f).toNat
        let w := s.w.toNat
        Leaves s t (destReg d (s.sel f)) (BitVec.ofNat 8 (256 + x - w)) (some (decide (w ≤ x)))
            (some (decide (w % 16 ≤ x % 16))) (some (decide (x = w))) 1
          ∧ InputsAfterRead s t f

/-- R93, R94, R95: IORWF, ANDWF, XORWF, bit by bit; Z alone. -/
def Obligations.LogicWithFileRegisterWritesZAlone : Prop :=
  ∀ (s : State) (f : FileAddr) (d : Dest),
    (IsWord (0x100 + 32 * destNum d + f.toNat) (.iorwf f d)
        ∧ ∃ t y, exec (.iorwf f d) s = .next t
          ∧ (∀ i, y.getLsbD i = (s.w.getLsbD i || (s.fileValue f).getLsbD i))
          ∧ Leaves s t (destReg d (s.sel f)) y none none (some (decide (y.toNat = 0))) 1 ∧ InputsAfterRead s t f)
      ∧ (IsWord (0x140 + 32 * destNum d + f.toNat) (.andwf f d)
        ∧ ∃ t y, exec (.andwf f d) s = .next t
          ∧ (∀ i, y.getLsbD i = (s.w.getLsbD i && (s.fileValue f).getLsbD i))
          ∧ Leaves s t (destReg d (s.sel f)) y none none (some (decide (y.toNat = 0))) 1 ∧ InputsAfterRead s t f)
      ∧ (IsWord (0x180 + 32 * destNum d + f.toNat) (.xorwf f d)
        ∧ ∃ t y, exec (.xorwf f d) s = .next t
          ∧ (∀ i, y.getLsbD i = (s.w.getLsbD i != (s.fileValue f).getLsbD i))
          ∧ Leaves s t (destReg d (s.sel f)) y none none (some (decide (y.toNat = 0))) 1 ∧ InputsAfterRead s t f)

/-- R97, R98, R99: IORLW, ANDLW, XORLW, bit by bit; Z alone. -/
def Obligations.LogicWithLiteralWritesWAndZAlone : Prop :=
  ∀ (s : State) (k : Byte),
    (IsWord (0xD00 + k.toNat) (.iorlw k)
        ∧ ∃ t y, exec (.iorlw k) s = .next t ∧ (∀ i, y.getLsbD i = (s.w.getLsbD i || k.getLsbD i))
          ∧ Leaves s t none y none none (some (decide (y.toNat = 0))) 1 ∧ InputsUnread s t)
      ∧ (IsWord (0xE00 + k.toNat) (.andlw k)
        ∧ ∃ t y, exec (.andlw k) s = .next t ∧ (∀ i, y.getLsbD i = (s.w.getLsbD i && k.getLsbD i))
          ∧ Leaves s t none y none none (some (decide (y.toNat = 0))) 1 ∧ InputsUnread s t)
      ∧ (IsWord (0xF00 + k.toNat) (.xorlw k)
        ∧ ∃ t y, exec (.xorlw k) s = .next t ∧ (∀ i, y.getLsbD i = (s.w.getLsbD i != k.getLsbD i))
          ∧ Leaves s t none y none none (some (decide (y.toNat = 0))) 1 ∧ InputsUnread s t)

/-- R100, R101: DECF and INCF wrap modulo 256 and write Z alone; C and DC keep their values. -/
def Obligations.DecfAndIncfWrapAndWriteZAlone : Prop :=
  ∀ (s : State) (f : FileAddr) (d : Dest),
    (IsWord (0x0C0 + 32 * destNum d + f.toNat) (.decf f d)
        ∧ ∃ t, exec (.decf f d) s = .next t ∧
          let x := (s.fileValue f).toNat
          Leaves s t (destReg d (s.sel f)) (BitVec.ofNat 8 (x + 255)) none none (some (decide (x = 1))) 1
            ∧ InputsAfterRead s t f)
      ∧ (IsWord (0x280 + 32 * destNum d + f.toNat) (.incf f d)
        ∧ ∃ t, exec (.incf f d) s = .next t ∧
          let x := (s.fileValue f).toNat
          Leaves s t (destReg d (s.sel f)) (BitVec.ofNat 8 (x + 1)) none none (some (decide (x = 255))) 1
            ∧ InputsAfterRead s t f)

/-- R105, R106: RRF and RLF rotate the nine bits of the byte and C; C alone is written. -/
def Obligations.RotatesMoveNineBitsThroughCarry : Prop :=
  ∀ (s : State) (f : FileAddr) (d : Dest),
    (IsWord (0x300 + 32 * destNum d + f.toNat) (.rrf f d)
        ∧ ∃ t, exec (.rrf f d) s = .next t ∧
          let x := (s.fileValue f).toNat
          Leaves s t (destReg d (s.sel f)) (BitVec.ofNat 8 (x / 2 + 128 * (s.status.toNat % 2)))
              (some (decide (x % 2 = 1))) none none 1
            ∧ InputsAfterRead s t f)
      ∧ (IsWord (0x340 + 32 * destNum d + f.toNat) (.rlf f d)
        ∧ ∃ t, exec (.rlf f d) s = .next t ∧
          let x := (s.fileValue f).toNat
          Leaves s t (destReg d (s.sel f)) (BitVec.ofNat 8 (2 * x + s.status.toNat % 2))
              (some (decide (128 ≤ x))) none none 1
            ∧ InputsAfterRead s t f)

/-- R105: nine applications of `RRF f,1` to a storage byte restore the byte and C. -/
def Obligations.NineRightRotationsRestoreByteAndCarry : Prop :=
  ∀ (s : State) (f : FileAddr) (a : Nat) (path : Nat → State), s.sel f = .storage a → path 0 = s →
    (∀ n < 9, exec (.rrf f .f) (path n) = .next (path (n + 1))) →
      (path 9).ram.read a = s.ram.read a ∧ (path 9).status = s.status

/-- R107: SWAPF exchanges the nibbles and writes no flag. -/
def Obligations.SwapfExchangesNibbles : Prop :=
  ∀ (s : State) (f : FileAddr) (d : Dest),
    IsWord (0x380 + 32 * destNum d + f.toNat) (.swapf f d)
      ∧ ∃ t, exec (.swapf f d) s = .next t ∧
        let x := (s.fileValue f).toNat
        Leaves s t (destReg d (s.sel f)) (BitVec.ofNat 8 (16 * (x % 16) + x / 16)) none none none 1
          ∧ InputsAfterRead s t f

/-- R110, R111: BCF and BSF write the whole byte back with one bit changed, and no flag. -/
def Obligations.BcfAndBsfChangeOneBit : Prop :=
  ∀ (s : State) (f : FileAddr) (b : BitIndex),
    (IsWord (0x400 + 32 * b.toNat + f.toNat) (.bcf f b)
        ∧ ∃ t y, exec (.bcf f b) s = .next t
          ∧ (∀ i, y.getLsbD i = ((s.fileValue f).getLsbD i && decide (i ≠ b.toNat)))
          ∧ Leaves s t (some (s.sel f)) y none none none 1 ∧ InputsAfterRead s t f)
      ∧ (IsWord (0x500 + 32 * b.toNat + f.toNat) (.bsf f b)
        ∧ ∃ t y, exec (.bsf f b) s = .next t
          ∧ (∀ i, y.getLsbD i = ((s.fileValue f).getLsbD i || decide (i = b.toNat)))
          ∧ Leaves s t (some (s.sel f)) y none none none 1 ∧ InputsAfterRead s t f)

/-- R115, R122: CLRW and MOVLW. -/
def Obligations.ClrwAndMovlwLoadW : Prop :=
  ∀ (s : State) (k : Byte),
    (IsWord 0x040 .clrw
        ∧ ∃ t, exec .clrw s = .next t ∧ Leaves s t none 0 none none (some true) 1 ∧ InputsUnread s t)
      ∧ (IsWord (0xC00 + k.toNat) (.movlw k)
        ∧ ∃ t, exec (.movlw k) s = .next t ∧ Leaves s t none k none none none 1 ∧ InputsUnread s t)

/-- R116, R120: CLRF and MOVWF write the file register without reading it; CLRF sets Z, MOVWF writes no flag. -/
def Obligations.ClrfAndMovwfStoreWithoutReading : Prop :=
  ∀ (s : State) (f : FileAddr),
    (IsWord (0x060 + f.toNat) (.clrf f)
        ∧ ∃ t, exec (.clrf f) s = .next t ∧ Leaves s t (some (s.sel f)) 0 none none (some true) 1 ∧ InputsUnread s t)
      ∧ (IsWord (0x020 + f.toNat) (.movwf f)
        ∧ ∃ t, exec (.movwf f) s = .next t ∧ Leaves s t (some (s.sel f)) s.w none none none 1 ∧ InputsUnread s t)

/-- R117, R121: COMF and MOVF; Z alone. -/
def Obligations.ComfAndMovfWriteZAlone : Prop :=
  ∀ (s : State) (f : FileAddr) (d : Dest),
    (IsWord (0x240 + 32 * destNum d + f.toNat) (.comf f d)
        ∧ ∃ t, exec (.comf f d) s = .next t ∧
          let x := (s.fileValue f).toNat
          Leaves s t (destReg d (s.sel f)) (BitVec.ofNat 8 (255 - x)) none none (some (decide (x = 255))) 1
            ∧ InputsAfterRead s t f)
      ∧ (IsWord (0x200 + 32 * destNum d + f.toNat) (.movf f d)
        ∧ ∃ t, exec (.movf f d) s = .next t
          ∧ Leaves s t (destReg d (s.sel f)) (s.fileValue f) none none
              (some (decide ((s.fileValue f).toNat = 0))) 1
          ∧ InputsAfterRead s t f)

/-! ### Registers outside the file, system instructions -/

/-- R125: OPTION loads all 8 bits of W and changes nothing else. -/
def Obligations.OptionLoadsOptionRegister : Prop :=
  ∀ s : State, IsWord 0x002 .option
    ∧ ∃ t, exec .option s = .next t ∧ t.optionReg = s.w ∧ t.tris = s.tris ∧ t.w = s.w ∧ t.status = s.status
      ∧ t.pc.toNat = nextAddr s 1 ∧ SameFile s t ∧ SameArguments s t ∧ SameStack s t ∧ SameWatchdog s t
      ∧ t.asleep = s.asleep ∧ SameInputs s t

/-- R126: TRIS of a port the variant has loads the implemented bits of that port's TRIS register and nothing else; TRIS
of a port it lacks is an unassigned word. -/
def Obligations.TrisLoadsThePortsRegister : Prop :=
  ∀ (s : State) (p : Port),
    encode (trisInstr p) = BitVec.ofNat 12 p.fileAddr
      ∧ (s.variant.hasPort p = true →
          decode s.variant (BitVec.ofNat 12 p.fileAddr) = .ok (trisInstr p)
            ∧ ∃ t, exec (trisInstr p) s = .next t
              ∧ (∀ q, t.tris.get q = if q = p then s.w &&& p.mask else s.tris.get q)
              ∧ t.optionReg = s.optionReg ∧ t.w = s.w ∧ t.status = s.status ∧ t.pc.toNat = nextAddr s 1
              ∧ SameFile s t ∧ SameArguments s t ∧ SameStack s t ∧ SameWatchdog s t ∧ t.asleep = s.asleep
              ∧ SameInputs s t)
      ∧ (s.variant.hasPort p = false →
          (∀ i, decode s.variant (BitVec.ofNat 12 p.fileAddr) ≠ .ok i)
            ∧ exec (trisInstr p) s = .fault (.illegalEncoding (BitVec.ofNat 12 p.fileAddr)))

/-- R130: NOP only advances `pc`. -/
def Obligations.NopOnlyAdvances : Prop :=
  ∀ s : State, IsWord 0x000 .nop
    ∧ ∃ t, exec .nop s = .next t ∧ { t with pc := s.pc } = s ∧ t.pc.toNat = nextAddr s 1

/-- R131: SLEEP clears the watchdog and its prescaler, sets /TO, clears /PD and puts the core to sleep; every other piece
of state keeps its value. -/
def Obligations.SleepEntersStandby : Prop :=
  ∀ s : State, IsWord 0x003 .sleep
    ∧ ∃ t, exec .sleep s = .next t ∧ t.wdt = 0 ∧ t.pre = 0 ∧ t.asleep = true
      ∧ (∀ i, t.status.getLsbD i = if i = 4 then true else if i = 3 then false else s.status.getLsbD i)
      ∧ t.pc.toNat = nextAddr s 1 ∧ t.w = s.w ∧ SameFile s t ∧ SameArguments s t ∧ SameStack s t ∧ SameOutside s t
      ∧ SameInputs s t

/-- R132: CLRWDT clears the watchdog and its prescaler and sets /TO and /PD. -/
def Obligations.ClrwdtClearsTheWatchdog : Prop :=
  ∀ s : State, IsWord 0x004 .clrwdt
    ∧ ∃ t, exec .clrwdt s = .next t ∧ t.wdt = 0 ∧ t.pre = 0 ∧ t.asleep = s.asleep
      ∧ (∀ i, t.status.getLsbD i = if i = 4 ∨ i = 3 then true else s.status.getLsbD i)
      ∧ t.pc.toNat = nextAddr s 1 ∧ t.w = s.w ∧ SameFile s t ∧ SameArguments s t ∧ SameStack s t ∧ SameOutside s t
      ∧ SameInputs s t

/-! ### Control transfer -/

/-- R135: GOTO goes to the word of the page that `PA1 : PA0` select, and changes nothing else. -/
def Obligations.GotoGoesToThePageWord : Prop :=
  ∀ (s : State) (k : BitVec 9), IsWord (0xA00 + k.toNat) (.goto k)
    ∧ ∃ t, exec (.goto k) s = .next t ∧ t.pc.toNat = pageAddr s k.toNat ∧ { t with pc := s.pc } = s

/-- R134, R41: CALL pushes the address of the next word and goes to the low half of the page; on a full stack it
faults. -/
def Obligations.CallPushesAndJumps : Prop :=
  ∀ (s : State) (k : Byte), IsWord (0x900 + k.toNat) (.call k)
    ∧ (s.sp < 2 → ∃ t, exec (.call k) s = .next t ∧ t.pc.toNat = pageAddr s k.toNat
        ∧ t.stk0.toNat = nextAddr s 1 ∧ t.stk1 = s.stk0 ∧ t.sp = s.sp + 1
        ∧ { t with pc := s.pc, stk0 := s.stk0, stk1 := s.stk1, sp := s.sp } = s)
    ∧ (2 ≤ s.sp → exec (.call k) s = .fault .stackOverflow)

/-- R133, R42: RETLW loads W and goes to the address on top of the stack, whatever the page bits; on an empty stack it
faults. -/
def Obligations.RetlwPopsAndLoadsW : Prop :=
  ∀ (s : State) (k : Byte), IsWord (0x800 + k.toNat) (.retlw k)
    ∧ (0 < s.sp → ∃ t, exec (.retlw k) s = .next t ∧ t.w = k ∧ t.pc = s.stk0 ∧ t.stk0 = s.stk1
        ∧ t.stk1 = s.stk1 ∧ t.sp = s.sp - 1
        ∧ { t with w := s.w, pc := s.pc, stk0 := s.stk0, stk1 := s.stk1, sp := s.sp } = s)
    ∧ (s.sp = 0 → exec (.retlw k) s = .fault .stackUnderflow)

/-- R22, R133, R134, R181: a RETLW that finds the stack as a CALL left it returns to the word after the CALL, in the
caller's page whatever the page bits are by then, and the stack is the caller's again. -/
def Obligations.RetlwReturnsBehindTheCall : Prop :=
  ∀ (s t u : State) (k k' : Byte), exec (.call k) s = .next t → SameStack t u →
    ∃ r, exec (.retlw k') u = .next r ∧ r.pc.toNat = nextAddr s 1 ∧ r.w = k' ∧ r.stk0 = s.stk0 ∧ r.sp = s.sp
      ∧ r.status = u.status

/-- R140, R141, R144: DECFSZ and INCFSZ write no flag, and skip when the result is 0; a form that would write PCL is
refused by name. -/
def Obligations.CountAndSkip : Prop :=
  ∀ (s : State) (f : FileAddr) (d : Dest),
    (IsWord (0x2C0 + 32 * destNum d + f.toNat) (.decfsz f d)
        ∧ (destReg d (s.sel f) ≠ some .pcl → ∃ t, exec (.decfsz f d) s = .next t ∧
            let x := (s.fileValue f).toNat
            Leaves s t (destReg d (s.sel f)) (BitVec.ofNat 8 (x + 255)) none none none (if x = 1 then 2 else 1)
              ∧ InputsAfterRead s t f)
        ∧ (destReg d (s.sel f) = some .pcl →
            exec (.decfsz f d) s = .fault (.refusedForm "skip with PCL destination")))
      ∧ (IsWord (0x3C0 + 32 * destNum d + f.toNat) (.incfsz f d)
        ∧ (destReg d (s.sel f) ≠ some .pcl → ∃ t, exec (.incfsz f d) s = .next t ∧
            let x := (s.fileValue f).toNat
            Leaves s t (destReg d (s.sel f)) (BitVec.ofNat 8 (x + 1)) none none none (if x = 255 then 2 else 1)
              ∧ InputsAfterRead s t f)
        ∧ (destReg d (s.sel f) = some .pcl →
            exec (.incfsz f d) s = .fault (.refusedForm "skip with PCL destination")))

/-- R142, R143: BTFSC and BTFSS read once, skip on the bit, and write nothing. -/
def Obligations.TestAndSkip : Prop :=
  ∀ (s : State) (f : FileAddr) (b : BitIndex),
    (IsWord (0x600 + 32 * b.toNat + f.toNat) (.btfsc f b)
        ∧ ∃ t, exec (.btfsc f b) s = .next t
          ∧ t.pc.toNat = nextAddr s (if (s.fileValue f).toNat / 2 ^ b.toNat % 2 = 0 then 2 else 1)
          ∧ { t with pc := s.pc, answers := s.answers, draws := s.draws } = s ∧ InputsAfterRead s t f)
      ∧ (IsWord (0x700 + 32 * b.toNat + f.toNat) (.btfss f b)
        ∧ ∃ t, exec (.btfss f b) s = .next t
          ∧ t.pc.toNat = nextAddr s (if (s.fileValue f).toNat / 2 ^ b.toNat % 2 = 1 then 2 else 1)
          ∧ { t with pc := s.pc, answers := s.answers, draws := s.draws } = s ∧ InputsAfterRead s t f)

/-- R23, R136, R180: `ADDWF 2,1` is the computed jump into the low half of the selected page, and the sum does not carry
into bit 8. -/
def Obligations.AddwfToPclIsTheComputedJump : Prop :=
  ∀ s : State, ∃ t, exec (.addwf 2 .f) s = .next t
    ∧ t.pc.toNat = pageAddr s ((nextAddr s 1 % 256 + s.w.toNat) % 256) ∧ t.w = s.w ∧ SameFile s t ∧ SameStack s t

/-- R183: a read-modify-write of a port replaces the latch by the pin levels with one bit changed. The pin levels are the
environment's answer (log entry 10). -/
def Obligations.BsfOnPortReplacesTheLatchByThePins : Prop :=
  ∀ (s : State) (f : FileAddr) (p : Port) (b : BitIndex), s.sel f = .port p →
    ∃ t, exec (.bsf f b) s = .next t
      ∧ (∀ i, (t.lat.get p).getLsbD i = (p.mask.getLsbD i
          && ((s.answers.headD (Config.pinRead p s.draws)).getLsbD i || decide (i = b.toNat))))
      ∧ (∀ q, q ≠ p → t.lat.get q = s.lat.get q)
end

