-- ==== Sys2Proof/Laws/Bits.lean ====
section
/-! SUPPORT. The flag computations and the program-counter targets, bit by bit and in natural numbers. -/

namespace Sys2Proof.Machine

/-! ### Bits of a byte -/

/-- A byte with one bit put: that bit, and the others as before. -/
theorem putBit_getLsbD (b : Byte) (i : Nat) (x : Bool) (hi : i < 8) (j : Nat) :
    (putBit b i x).getLsbD j = if j = i then x else b.getLsbD j := by
  by_cases hj : j < 8
  · have key : ∀ i : Fin 8, ∀ j : Fin 8, (1#8 <<< i.val).getLsbD j.val = decide (j = i) := by decide
    have h1 := key ⟨i, hi⟩ ⟨j, hj⟩
    simp only [Fin.mk.injEq] at h1
    cases x
    · simp only [putBit, Bool.false_eq_true, if_false, BitVec.getLsbD_and, BitVec.getLsbD_not, h1, hj]
      by_cases h : j = i <;> simp [h]
    · simp only [putBit, if_true, BitVec.getLsbD_or, h1]
      by_cases h : j = i <;> simp [h]
  · have : j ≠ i := by omega
    rw [if_neg this, BitVec.getLsbD_of_ge _ _ (by omega), BitVec.getLsbD_of_ge _ _ (by omega)]

/-- The same for an optional value. -/
theorem putBit?_getLsbD (b : Byte) (i : Nat) (x : Option Bool) (hi : i < 8) (j : Nat) :
    (putBit? b i x).getLsbD j = if j = i then x.getD (b.getLsbD i) else b.getLsbD j := by
  cases x with
  | none => simp only [putBit?, Option.getD_none]; split_ifs with h <;> simp [h]
  | some x => simp only [putBit?, Option.getD_some, putBit_getLsbD _ _ _ hi]

/-- STATUS after the flags of an update are put in place. -/
theorem FlagUpdate.apply_getLsbD (u : FlagUpdate) (st : Byte) (j : Nat) :
    (u.apply st).getLsbD j =
      if j = 2 then u.z.getD (st.getLsbD 2) else if j = 1 then u.dc.getD (st.getLsbD 1)
      else if j = 0 then u.c.getD (st.getLsbD 0) else st.getLsbD j := by
  have e := fun (b : Byte) (i : Nat) (x : Option Bool) (j : Nat) (hi : i < 8) => putBit?_getLsbD b i x hi j
  unfold FlagUpdate.apply bitC bitDC bitZ
  rw [e _ 2 _ _ (by omega)]
  by_cases h2 : j = 2
  · rw [if_pos h2, if_pos h2, e _ 1 _ _ (by omega), if_neg (by omega), e _ 0 _ _ (by omega), if_neg (by omega)]
  rw [if_neg h2, if_neg h2, e _ 1 _ _ (by omega)]
  by_cases h1 : j = 1
  · rw [if_pos h1, if_pos h1, e _ 0 _ _ (by omega), if_neg (by omega)]
  rw [if_neg h1, if_neg h1, e _ 0 _ _ (by omega)]

/-- An update that writes no flag leaves STATUS as it is. -/
@[simp] theorem FlagUpdate.apply_keep (st : Byte) : FlagUpdate.keep.apply st = st := rfl

/-- STATUS after a write to it (R29). -/
theorem statusWrite_getLsbD (old v : Byte) (flags : Bool) (j : Nat) :
    (statusWrite old v flags).getLsbD j =
      if 5 ≤ j ∨ (j < 3 ∧ flags = false) then v.getLsbD j else old.getLsbD j := by
  by_cases hj : j < 8
  · have m1 : ∀ j : Fin 8, BitVec.getLsbD (0xE0 : Byte) j.val = decide (5 ≤ j.val) := by decide
    have m2 : ∀ j : Fin 8, BitVec.getLsbD (0x1F : Byte) j.val = decide (j.val < 5) := by decide
    have m3 : ∀ j : Fin 8, BitVec.getLsbD (0xE7 : Byte) j.val = decide (5 ≤ j.val ∨ j.val < 3) := by decide
    have m4 : ∀ j : Fin 8, BitVec.getLsbD (0x18 : Byte) j.val = decide (3 ≤ j.val ∧ j.val < 5) := by decide
    have m1 := m1 ⟨j, hj⟩
    have m2 := m2 ⟨j, hj⟩
    have m3 := m3 ⟨j, hj⟩
    have m4 := m4 ⟨j, hj⟩
    simp only at m1 m2 m3 m4
    cases flags
    · simp only [statusWrite, Bool.false_eq_true, if_false, BitVec.getLsbD_or, BitVec.getLsbD_and, m3, m4, and_true]
      by_cases h1 : 5 ≤ j ∨ j < 3
      · have h2 : ¬(3 ≤ j ∧ j < 5) := by omega
        simp [h1, h2]
      · have h2 : 3 ≤ j ∧ j < 5 := by omega
        simp [h1, h2]
    · simp only [statusWrite, if_true, BitVec.getLsbD_or, BitVec.getLsbD_and, m1, m2]
      by_cases h1 : 5 ≤ j
      · have h2 : ¬ j < 5 := by omega
        simp [h1, h2]
      · have h2 : j < 5 := by omega
        simp [h1, h2]
  · rw [BitVec.getLsbD_of_ge _ _ (by omega), BitVec.getLsbD_of_ge _ _ (by omega), BitVec.getLsbD_of_ge _ _ (by omega)]
    simp

/-! ### Program-counter targets in natural numbers -/

/-- Masking with `pcMask` is the remainder modulo `2^PC_BITS`. -/
theorem and_pcMask_toNat (v : Variant) (x : ProgAddr) : (x &&& v.pcMask).toNat = x.toNat % 2 ^ v.pcBits := by
  have h : v.pcMask.toNat = 2 ^ v.pcBits - 1 := by cases v <;> rfl
  rw [BitVec.toNat_and, h, Nat.and_two_pow_sub_one_eq_mod]

/-- The mask of the implemented bits of FSR is the remainder modulo `2^FSR_BITS`. -/
theorem and_fsrMask_toNat (v : Variant) (x : Byte) : (x &&& v.fsrMask).toNat = x.toNat % 2 ^ v.fsrBits := by
  have h : v.fsrMask.toNat = 2 ^ v.fsrBits - 1 := by cases v <;> rfl
  rw [BitVec.toNat_and, h, Nat.and_two_pow_sub_one_eq_mod]

/-- `2^PC_BITS` divides `2^11`. -/
theorem pcBits_dvd (v : Variant) : 2 ^ v.pcBits ∣ 2048 := by cases v <;> decide

/-- The advance in natural numbers (R24). -/
theorem State.pcPlus_toNat (s : State) (n : ProgAddr) : (s.pcPlus n).toNat = nextAddr s n.toNat := by
  unfold State.pcPlus nextAddr
  rw [and_pcMask_toNat, BitVec.toNat_add]
  exact Nat.mod_mod_of_dvd _ (pcBits_dvd _)

/-- The page bits in natural numbers. -/
theorem State.pageBits_toNat (s : State) : s.pageBits.toNat = s.status.toNat / 32 % 4 := by
  simp [State.pageBits, Nat.shiftRight_eq_div_pow]

/-- The GOTO target in natural numbers (R135). -/
theorem State.gotoTarget_toNat (s : State) (k : BitVec 9) : (s.gotoTarget k).toNat = pageAddr s k.toNat := by
  have h : (s.pageBits ++ k).toNat = 512 * (s.status.toNat / 32 % 4) + k.toNat := by
    rw [BitVec.toNat_append, s.pageBits_toNat, Nat.shiftLeft_eq, ← Nat.mul_comm, ← Nat.two_pow_add_eq_or_of_lt k.isLt]
  rw [State.gotoTarget, and_pcMask_toNat]
  exact congrArg (· % 2 ^ s.variant.pcBits) h

/-- The target of a CALL or of a write to PCL, in natural numbers (R23, R134). -/
theorem State.lowTarget_toNat (s : State) (k : Byte) : (s.lowTarget k).toNat = pageAddr s k.toNat := by
  have h : (s.pageBits ++ 0#1 ++ k : BitVec 11).toNat = 512 * (s.status.toNat / 32 % 4) + k.toNat := by
    rw [BitVec.toNat_append, BitVec.toNat_append, s.pageBits_toNat, Nat.shiftLeft_eq, ← Nat.mul_comm,
      ← Nat.two_pow_add_eq_or_of_lt k.isLt]
    simp [Nat.shiftLeft_eq]; omega
  rw [State.lowTarget, and_pcMask_toNat]
  exact congrArg (· % 2 ^ s.variant.pcBits) h

/-- A CALL or PCL target has bit 8 clear (R64, R180). -/
theorem State.lowTarget_bit8 (s : State) (k : Byte) : (s.lowTarget k).getLsbD 8 = false := by
  have h : (s.pageBits ++ 0#1 ++ k : BitVec 11).getLsbD 8 = false := by
    rw [BitVec.getLsbD_append, if_neg (by omega), BitVec.getLsbD_append, if_pos (by omega)]; rfl
  rw [State.lowTarget, BitVec.getLsbD_and]
  exact (congrArg (· && s.variant.pcMask.getLsbD 8) h).trans (Bool.false_and _)

/-- Every program-counter value an operation forms is an address of the variant. -/
theorem nextAddr_lt (s : State) (n : Nat) : nextAddr s n < 2 ^ s.variant.pcBits := Nat.mod_lt _ (Nat.two_pow_pos _)
/-- Every target is an address of the variant. -/
theorem pageAddr_lt (s : State) (n : Nat) : pageAddr s n < 2 ^ s.variant.pcBits := Nat.mod_lt _ (Nat.two_pow_pos _)

/-! ### Results and flags in natural numbers -/

/-- `Add(x, w)` (R91). -/
theorem addFlags_eq (x w : Byte) :
    addFlags x w = (BitVec.ofNat 8 (x.toNat + w.toNat),
      ⟨some (decide (256 ≤ x.toNat + w.toNat)), some (decide (16 ≤ x.toNat % 16 + w.toNat % 16)),
        some (decide ((x.toNat + w.toNat) % 256 = 0))⟩) := by
  have hx := x.isLt
  have hw := w.isLt
  have hs : (x.setWidth 9 + w.setWidth 9 : BitVec 9).toNat = x.toNat + w.toNat := by
    simp; omega
  have hr : (x.setWidth 9 + w.setWidth 9 : BitVec 9).extractLsb' 0 8 = BitVec.ofNat 8 (x.toNat + w.toNat) := by
    apply BitVec.eq_of_toNat_eq
    rw [BitVec.extractLsb'_toNat, hs]; simp
  have hc : (x.setWidth 9 + w.setWidth 9 : BitVec 9).getLsbD 8 = decide (256 ≤ x.toNat + w.toNat) := by
    rw [BitVec.getLsbD, hs, Nat.testBit_eq_decide_div_mod_eq]
    by_cases h : 256 ≤ x.toNat + w.toNat
    · have : (x.toNat + w.toNat) / 256 % 2 = 1 := by omega
      simp [h, this]
    · have : (x.toNat + w.toNat) / 256 % 2 = 0 := by omega
      simp [h, this]
  have hz : (BitVec.ofNat 8 (x.toNat + w.toNat) = 0#8) ↔ (x.toNat + w.toNat) % 256 = 0 := by
    rw [← BitVec.toNat_inj]; simp
  simp only [addFlags, hr, hc, Prod.mk.injEq, FlagUpdate.mk.injEq, Option.some.injEq, true_and, decide_eq_decide]
  exact ⟨Iff.rfl, hz⟩

/-- `Sub(x, w)` (R91). -/
theorem subFlags_eq (x w : Byte) :
    subFlags x w = (BitVec.ofNat 8 (256 + x.toNat - w.toNat),
      ⟨some (decide (w.toNat ≤ x.toNat)), some (decide (w.toNat % 16 ≤ x.toNat % 16)),
        some (decide (x.toNat = w.toNat))⟩) := by
  have hx := x.isLt
  have hw := w.isLt
  have hr : x - w = BitVec.ofNat 8 (256 + x.toNat - w.toNat) := by
    apply BitVec.eq_of_toNat_eq
    rw [BitVec.toNat_sub, BitVec.toNat_ofNat]
    congr 1; omega
  have hz : (x - w = 0#8) ↔ x.toNat = w.toNat := by
    rw [← BitVec.toNat_inj, BitVec.toNat_sub]; simp; omega
  simp only [subFlags, Prod.mk.injEq, FlagUpdate.mk.injEq, Option.some.injEq, true_and, decide_eq_decide]
  exact ⟨hr, hz⟩

/-- `x - 1` in natural numbers (R100). -/
theorem sub_one_eq (x : Byte) : x - 1 = BitVec.ofNat 8 (x.toNat + 255) := by
  apply BitVec.eq_of_toNat_eq
  rw [BitVec.toNat_sub, BitVec.toNat_ofNat]; simp; omega

/-- `x + 1` in natural numbers (R101). -/
theorem add_one_eq (x : Byte) : x + 1 = BitVec.ofNat 8 (x.toNat + 1) := by
  apply BitVec.eq_of_toNat_eq
  rw [BitVec.toNat_add, BitVec.toNat_ofNat]; rfl

/-- A byte written as a number is 0 exactly when the number is a multiple of 256. -/
theorem ofNat_eq_zero (n : Nat) : BitVec.ofNat 8 n = 0#8 ↔ n % 256 = 0 := by
  rw [← BitVec.toNat_inj]; simp

set_option maxRecDepth 4000 in
/-- The rotation right in natural numbers (R105). -/
theorem rotateRight_eq (x : Byte) (c : Bool) :
    rotateRight x c = (BitVec.ofNat 8 (x.toNat / 2 + 128 * c.toNat), ⟨some (decide (x.toNat % 2 = 1)), none, none⟩) := by
  have key : ∀ c : Bool, ∀ n : Fin 256, rotateRight (BitVec.ofFin n) c
      = (BitVec.ofNat 8 (n.val / 2 + 128 * c.toNat), ⟨some (decide (n.val % 2 = 1)), none, none⟩) := by decide
  exact key c x.toFin

set_option maxRecDepth 4000 in
/-- The rotation left in natural numbers (R106). -/
theorem rotateLeft_eq (x : Byte) (c : Bool) :
    rotateLeft x c = (BitVec.ofNat 8 (2 * x.toNat + c.toNat), ⟨some (decide (128 ≤ x.toNat)), none, none⟩) := by
  have key : ∀ c : Bool, ∀ n : Fin 256, rotateLeft (BitVec.ofFin n) c
      = (BitVec.ofNat 8 (2 * n.val + c.toNat), ⟨some (decide (128 ≤ n.val)), none, none⟩) := by decide
  exact key c x.toFin

set_option maxRecDepth 4000 in
/-- The nibble swap in natural numbers (R107). -/
theorem swapNibbles_eq (x : Byte) : swapNibbles x = BitVec.ofNat 8 (16 * (x.toNat % 16) + x.toNat / 16) := by
  have key : ∀ n : Fin 256, swapNibbles (BitVec.ofFin n) = BitVec.ofNat 8 (16 * (n.val % 16) + n.val / 16) := by decide
  exact key x.toFin

/-- The complement in natural numbers (R117). -/
theorem not_eq (x : Byte) : ~~~x = BitVec.ofNat 8 (255 - x.toNat) := by
  apply BitVec.eq_of_toNat_eq
  rw [BitVec.toNat_not, BitVec.toNat_ofNat]
  have := x.isLt
  omega

/-- The bits of `1 << b` (R73). -/
theorem bitMask_getLsbD (b : BitIndex) (j : Nat) : (bitMask b).getLsbD j = decide (j = b.toNat) := by
  have key : ∀ b : Fin 8, ∀ j : Fin 8, (bitMask (BitVec.ofFin b)).getLsbD j.val = decide (j.val = b.val) := by decide
  by_cases hj : j < 8
  · exact key b.toFin ⟨j, hj⟩
  · have := b.isLt
    rw [BitVec.getLsbD_of_ge _ _ (by omega)]
    simp; omega

/-- The flag C as a number. -/
theorem State.carry_toNat (s : State) : s.carry.toNat = s.status.toNat % 2 := by
  unfold State.carry bitC
  rw [BitVec.getLsbD, Nat.testBit_zero]
  rcases Nat.mod_two_eq_zero_or_one s.status.toNat with h | h <;> simp [h]

end Sys2Proof.Machine
end

