-- ==== Sys2Proof/Laws/Memory.lean ====
section
/-! SUPPORT. The laws of the two sparse memories: a read after a write, and that a write keeps the canonical form. -/

namespace Sys2Proof.Machine

variable {n : Nat} {dflt : BitVec n}

/-- After an erasure the address reads as unlisted, every other address as before. -/
theorem Sparse.read_erase (m : List (Nat × BitVec n)) (a b : Nat) :
    Sparse.read dflt (Sparse.erase m a) b = if b = a then dflt else Sparse.read dflt m b := by
  induction m with
  | nil => simp [Sparse.erase, Sparse.read]
  | cons c m ih =>
    obtain ⟨k, x⟩ := c
    by_cases hb : b = a
    · subst hb
      rw [if_pos rfl] at ih ⊢
      by_cases hk : k = b
      · rw [Sparse.erase, if_pos hk, ih]
      · rw [Sparse.erase, if_neg hk, Sparse.read, if_neg hk, ih]
    · rw [if_neg hb] at ih ⊢
      by_cases hk : k = a
      · rw [Sparse.erase, if_pos hk, ih, Sparse.read, if_neg (by omega)]
      · rw [Sparse.erase, if_neg hk, Sparse.read, Sparse.read, ih]

/-- An insertion where the address is not listed: the new value at its address, the old value elsewhere. -/
theorem Sparse.read_insert (m : List (Nat × BitVec n)) (a b : Nat) (v : BitVec n) (h : ∀ c ∈ m, c.1 ≠ a) :
    Sparse.read dflt (Sparse.insert m a v) b = if b = a then v else Sparse.read dflt m b := by
  induction m with
  | nil =>
    by_cases hb : b = a
    · simp [Sparse.insert, Sparse.read, hb]
    · simp [Sparse.insert, Sparse.read, hb, Ne.symm hb]
  | cons c m ih =>
    obtain ⟨k, x⟩ := c
    have hk : k ≠ a := h (k, x) (List.mem_cons_self ..)
    have ih := ih (fun c hc => h c (List.mem_cons_of_mem _ hc))
    simp only [Sparse.insert]
    by_cases hb : b = a
    · subst hb
      rw [if_pos rfl] at ih ⊢
      by_cases hlt : b < k
      · rw [if_pos hlt, Sparse.read, if_pos rfl]
      · rw [if_neg hlt, Sparse.read, if_neg hk, ih]
    · rw [if_neg hb] at ih ⊢
      by_cases hlt : a < k
      · rw [if_pos hlt, Sparse.read, if_neg (Ne.symm hb)]
      · rw [if_neg hlt, Sparse.read, Sparse.read, ih]

/-- No entry for an erased address. -/
theorem Sparse.ne_of_mem_erase {m : List (Nat × BitVec n)} {a : Nat} {c : Nat × BitVec n}
    (h : c ∈ Sparse.erase m a) : c.1 ≠ a ∧ c ∈ m := by
  induction m with
  | nil => cases h
  | cons c' m ih =>
    obtain ⟨k, x⟩ := c'
    simp only [Sparse.erase] at h
    split_ifs at h with hk
    · exact (ih h).imp_right (List.mem_cons_of_mem _)
    · rcases List.mem_cons.1 h with h | h
      · exact ⟨by rw [h]; exact hk, by rw [h]; exact List.mem_cons_self ..⟩
      · exact (ih h).imp_right (List.mem_cons_of_mem _)

/-- The entries after an insertion. -/
theorem Sparse.mem_insert {m : List (Nat × BitVec n)} {a : Nat} {v : BitVec n} {c : Nat × BitVec n}
    (h : c ∈ Sparse.insert m a v) : c = (a, v) ∨ c ∈ m := by
  induction m with
  | nil => simpa [Sparse.insert] using h
  | cons c' m ih =>
    obtain ⟨k, x⟩ := c'
    simp only [Sparse.insert] at h
    split_ifs at h
    · simpa using h
    · rcases List.mem_cons.1 h with h | h
      · exact .inr (by rw [h]; exact List.mem_cons_self ..)
      · exact (ih h).imp_right (List.mem_cons_of_mem _)

/-- A read after a write: the written value at its address, the old value elsewhere. It holds of every list, canonical or
not. -/
theorem Sparse.read_write (m : List (Nat × BitVec n)) (a b : Nat) (v : BitVec n) :
    Sparse.read dflt (Sparse.write dflt m a v) b = if b = a then v else Sparse.read dflt m b := by
  unfold Sparse.write
  split_ifs with hv hb hb
  · rw [Sparse.read_erase, if_pos hb, hv]
  · rw [Sparse.read_erase, if_neg hb]
  · rw [Sparse.read_insert _ _ _ _ (fun c hc => (Sparse.ne_of_mem_erase hc).1), if_pos hb]
  · rw [Sparse.read_insert _ _ _ _ (fun c hc => (Sparse.ne_of_mem_erase hc).1), if_neg hb, Sparse.read_erase, if_neg hb]

/-- A canonical memory from `lo` on is one from any earlier address on. -/
theorem Sparse.wfFrom_mono {m : List (Nat × BitVec n)} {lo lo' : Nat} (h : lo' ≤ lo)
    (hm : Sparse.wfFrom dflt lo m = true) : Sparse.wfFrom dflt lo' m = true := by
  cases m with
  | nil => rfl
  | cons c m =>
    simp only [Sparse.wfFrom, Bool.and_eq_true, decide_eq_true_eq] at hm ⊢
    exact ⟨⟨by omega, hm.1.2⟩, hm.2⟩

/-- An erasure keeps the canonical form. -/
theorem Sparse.wfFrom_erase {m : List (Nat × BitVec n)} {lo : Nat} (hm : Sparse.wfFrom dflt lo m = true) (a : Nat) :
    Sparse.wfFrom dflt lo (Sparse.erase m a) = true := by
  induction m generalizing lo with
  | nil => rfl
  | cons c m ih =>
    obtain ⟨k, x⟩ := c
    simp only [Sparse.wfFrom, Bool.and_eq_true, decide_eq_true_eq] at hm
    simp only [Sparse.erase]
    split_ifs
    · exact Sparse.wfFrom_mono (by omega) (ih hm.2)
    · simp only [Sparse.wfFrom, Bool.and_eq_true, decide_eq_true_eq]
      exact ⟨hm.1, ih hm.2⟩

/-- An insertion of a value that must be listed, at an address that is not, keeps the canonical form. -/
theorem Sparse.wfFrom_insert {m : List (Nat × BitVec n)} {lo : Nat} (hm : Sparse.wfFrom dflt lo m = true) (a : Nat)
    (v : BitVec n) (hv : v ≠ dflt) (ha : lo ≤ a) (hna : ∀ c ∈ m, c.1 ≠ a) :
    Sparse.wfFrom dflt lo (Sparse.insert m a v) = true := by
  induction m generalizing lo with
  | nil => simp [Sparse.insert, Sparse.wfFrom, hv, ha]
  | cons c m ih =>
    obtain ⟨k, x⟩ := c
    have hk : k ≠ a := hna (k, x) (List.mem_cons_self ..)
    simp only [Sparse.wfFrom, Bool.and_eq_true, decide_eq_true_eq] at hm
    simp only [Sparse.insert]
    split_ifs with h
    · simp only [Sparse.wfFrom, Bool.and_eq_true, decide_eq_true_eq]
      exact ⟨⟨ha, hv⟩, ⟨by omega, hm.1.2⟩, hm.2⟩
    · simp only [Sparse.wfFrom, Bool.and_eq_true, decide_eq_true_eq]
      exact ⟨hm.1, ih hm.2 (by omega) (fun c hc => hna c (List.mem_cons_of_mem _ hc))⟩

/-- A write keeps the canonical form, from any address not above the written one. -/
theorem Sparse.wfFrom_write {m : List (Nat × BitVec n)} {lo : Nat} (hm : Sparse.wfFrom dflt lo m = true) (a : Nat)
    (v : BitVec n) (ha : lo ≤ a) : Sparse.wfFrom dflt lo (Sparse.write dflt m a v) = true := by
  unfold Sparse.write
  split_ifs with hv
  · exact Sparse.wfFrom_erase hm a
  · exact Sparse.wfFrom_insert (Sparse.wfFrom_erase hm a) a v hv ha (fun c hc => (Sparse.ne_of_mem_erase hc).1)

/-- Every address a write lists is the written one or was listed before. -/
theorem Sparse.mem_write {m : List (Nat × BitVec n)} {a : Nat} {v : BitVec n} {c : Nat × BitVec n}
    (h : c ∈ Sparse.write dflt m a v) : c.1 = a ∨ c ∈ m := by
  unfold Sparse.write at h
  split_ifs at h
  · exact .inr (Sparse.ne_of_mem_erase h).2
  · rcases Sparse.mem_insert h with h | h
    · exact .inl (by rw [h])
    · exact .inr (Sparse.ne_of_mem_erase h).2

/-- What an unlisted address of data memory reads as. -/
theorem Memory.read_nil (a : Nat) : Memory.read [] a = Memory.unlisted := rfl

/-- The storage byte read after a store (R38, R66), and every other storage byte as before. -/
theorem Memory.read_write (m : Memory) (a b : Nat) (v : Byte) :
    (m.write a v).read b = if b = a then v else m.read b := Sparse.read_write m a b v

/-- A store keeps data memory canonical. -/
theorem Memory.wf_write {m : Memory} (hm : m.wf = true) (a : Nat) (v : Byte) : (m.write a v).wf = true :=
  Sparse.wfFrom_write hm a v (Nat.zero_le a)

/-- Every address a store lists is the stored one or was listed before. -/
theorem Memory.mem_write {m : Memory} {a : Nat} {v : Byte} {c : Host.Cell} (h : c ∈ m.write a v) : c.1 = a ∨ c ∈ m :=
  Sparse.mem_write h

/-- The program word read after an image word is written. -/
theorem ProgMem.read_write (m : ProgMem) (a b : Nat) (v : InstrWord) :
    (m.write a v).read b = if b = a then v else m.read b := Sparse.read_write m a b v

/-- Writing an image word keeps program memory canonical. -/
theorem ProgMem.wf_write {m : ProgMem} (hm : m.wf = true) (a : Nat) (v : InstrWord) : (m.write a v).wf = true :=
  Sparse.wfFrom_write hm a v (Nat.zero_le a)

/-- The storage bytes a reset event writes one after the other keep data memory canonical, and list storage bytes
only. -/
theorem Memory.foldl_write_wf (g : Nat → Byte) (as : List Nat) (m : Memory) (hm : m.wf = true) :
    (as.foldl (fun m a => m.write a (g a)) m).wf = true
      ∧ ∀ c ∈ as.foldl (fun m a => m.write a (g a)) m, c.1 ∈ as ∨ c ∈ m := by
  induction as generalizing m with
  | nil => exact ⟨hm, fun c h => .inr h⟩
  | cons a as ih =>
    obtain ⟨h1, h2⟩ := ih (m.write a (g a)) (Memory.wf_write hm a _)
    refine ⟨h1, fun c hc => ?_⟩
    rcases h2 c hc with h | h
    · exact .inl (List.mem_cons_of_mem _ h)
    · exact (Memory.mem_write h).imp_left (fun e => by rw [e]; exact List.mem_cons_self ..)

/-- Data memory after a reset event is canonical and lists storage bytes only. -/
theorem ramAfterReset_wf (v : Variant) (n : Nat) :
    (ramAfterReset v n).wf = true ∧ ∀ c ∈ ramAfterReset v n, isStorage v c.1 = true := by
  obtain ⟨h1, h2⟩ := Memory.foldl_write_wf (fun a => Config.resetStorage a n) (storageAddrs v) [] rfl
  refine ⟨h1, fun c hc => ?_⟩
  rcases h2 c hc with h | h
  · exact (List.mem_filter.1 h).2
  · cases h

end Sys2Proof.Machine
end

