-- ==== Sys2Proof/Laws/State.lean ====
section
/-! SUPPORT. One lemma per field and shared update of the state: what the update leaves alone, and what it sets. -/

namespace Sys2Proof.Machine

/-! ### advance -/

@[simp] theorem State.advance_variant (s : State) : (s.advance).variant = s.variant := rfl
@[simp] theorem State.advance_wdtEnabled (s : State) : (s.advance).wdtEnabled = s.wdtEnabled := rfl
@[simp] theorem State.advance_prog (s : State) : (s.advance).prog = s.prog := rfl
@[simp] theorem State.advance_w (s : State) : (s.advance).w = s.w := rfl
@[simp] theorem State.advance_status (s : State) : (s.advance).status = s.status := rfl
@[simp] theorem State.advance_fsr (s : State) : (s.advance).fsr = s.fsr := rfl
@[simp] theorem State.advance_tmr0 (s : State) : (s.advance).tmr0 = s.tmr0 := rfl
@[simp] theorem State.advance_optionReg (s : State) : (s.advance).optionReg = s.optionReg := rfl
@[simp] theorem State.advance_tris (s : State) : (s.advance).tris = s.tris := rfl
@[simp] theorem State.advance_lat (s : State) : (s.advance).lat = s.lat := rfl
@[simp] theorem State.advance_ram (s : State) : (s.advance).ram = s.ram := rfl
@[simp] theorem State.advance_stk0 (s : State) : (s.advance).stk0 = s.stk0 := rfl
@[simp] theorem State.advance_stk1 (s : State) : (s.advance).stk1 = s.stk1 := rfl
@[simp] theorem State.advance_sp (s : State) : (s.advance).sp = s.sp := rfl
@[simp] theorem State.advance_wdt (s : State) : (s.advance).wdt = s.wdt := rfl
@[simp] theorem State.advance_pre (s : State) : (s.advance).pre = s.pre := rfl
@[simp] theorem State.advance_asleep (s : State) : (s.advance).asleep = s.asleep := rfl
@[simp] theorem State.advance_resetLines (s : State) : (s.advance).resetLines = s.resetLines := rfl
@[simp] theorem State.advance_answers (s : State) : (s.advance).answers = s.answers := rfl
@[simp] theorem State.advance_draws (s : State) : (s.advance).draws = s.draws := rfl

/-! ### skip -/

@[simp] theorem State.skip_variant (s : State) : (s.skip).variant = s.variant := rfl
@[simp] theorem State.skip_wdtEnabled (s : State) : (s.skip).wdtEnabled = s.wdtEnabled := rfl
@[simp] theorem State.skip_prog (s : State) : (s.skip).prog = s.prog := rfl
@[simp] theorem State.skip_w (s : State) : (s.skip).w = s.w := rfl
@[simp] theorem State.skip_status (s : State) : (s.skip).status = s.status := rfl
@[simp] theorem State.skip_fsr (s : State) : (s.skip).fsr = s.fsr := rfl
@[simp] theorem State.skip_tmr0 (s : State) : (s.skip).tmr0 = s.tmr0 := rfl
@[simp] theorem State.skip_optionReg (s : State) : (s.skip).optionReg = s.optionReg := rfl
@[simp] theorem State.skip_tris (s : State) : (s.skip).tris = s.tris := rfl
@[simp] theorem State.skip_lat (s : State) : (s.skip).lat = s.lat := rfl
@[simp] theorem State.skip_ram (s : State) : (s.skip).ram = s.ram := rfl
@[simp] theorem State.skip_stk0 (s : State) : (s.skip).stk0 = s.stk0 := rfl
@[simp] theorem State.skip_stk1 (s : State) : (s.skip).stk1 = s.stk1 := rfl
@[simp] theorem State.skip_sp (s : State) : (s.skip).sp = s.sp := rfl
@[simp] theorem State.skip_wdt (s : State) : (s.skip).wdt = s.wdt := rfl
@[simp] theorem State.skip_pre (s : State) : (s.skip).pre = s.pre := rfl
@[simp] theorem State.skip_asleep (s : State) : (s.skip).asleep = s.asleep := rfl
@[simp] theorem State.skip_resetLines (s : State) : (s.skip).resetLines = s.resetLines := rfl
@[simp] theorem State.skip_answers (s : State) : (s.skip).answers = s.answers := rfl
@[simp] theorem State.skip_draws (s : State) : (s.skip).draws = s.draws := rfl

/-! ### advanceOrSkip -/

@[simp] theorem State.advanceOrSkip_variant (s : State) (c : Bool) : (s.advanceOrSkip c).variant = s.variant := by cases c <;> rfl
@[simp] theorem State.advanceOrSkip_wdtEnabled (s : State) (c : Bool) : (s.advanceOrSkip c).wdtEnabled = s.wdtEnabled := by cases c <;> rfl
@[simp] theorem State.advanceOrSkip_prog (s : State) (c : Bool) : (s.advanceOrSkip c).prog = s.prog := by cases c <;> rfl
@[simp] theorem State.advanceOrSkip_w (s : State) (c : Bool) : (s.advanceOrSkip c).w = s.w := by cases c <;> rfl
@[simp] theorem State.advanceOrSkip_status (s : State) (c : Bool) : (s.advanceOrSkip c).status = s.status := by cases c <;> rfl
@[simp] theorem State.advanceOrSkip_fsr (s : State) (c : Bool) : (s.advanceOrSkip c).fsr = s.fsr := by cases c <;> rfl
@[simp] theorem State.advanceOrSkip_tmr0 (s : State) (c : Bool) : (s.advanceOrSkip c).tmr0 = s.tmr0 := by cases c <;> rfl
@[simp] theorem State.advanceOrSkip_optionReg (s : State) (c : Bool) : (s.advanceOrSkip c).optionReg = s.optionReg := by cases c <;> rfl
@[simp] theorem State.advanceOrSkip_tris (s : State) (c : Bool) : (s.advanceOrSkip c).tris = s.tris := by cases c <;> rfl
@[simp] theorem State.advanceOrSkip_lat (s : State) (c : Bool) : (s.advanceOrSkip c).lat = s.lat := by cases c <;> rfl
@[simp] theorem State.advanceOrSkip_ram (s : State) (c : Bool) : (s.advanceOrSkip c).ram = s.ram := by cases c <;> rfl
@[simp] theorem State.advanceOrSkip_stk0 (s : State) (c : Bool) : (s.advanceOrSkip c).stk0 = s.stk0 := by cases c <;> rfl
@[simp] theorem State.advanceOrSkip_stk1 (s : State) (c : Bool) : (s.advanceOrSkip c).stk1 = s.stk1 := by cases c <;> rfl
@[simp] theorem State.advanceOrSkip_sp (s : State) (c : Bool) : (s.advanceOrSkip c).sp = s.sp := by cases c <;> rfl
@[simp] theorem State.advanceOrSkip_wdt (s : State) (c : Bool) : (s.advanceOrSkip c).wdt = s.wdt := by cases c <;> rfl
@[simp] theorem State.advanceOrSkip_pre (s : State) (c : Bool) : (s.advanceOrSkip c).pre = s.pre := by cases c <;> rfl
@[simp] theorem State.advanceOrSkip_asleep (s : State) (c : Bool) : (s.advanceOrSkip c).asleep = s.asleep := by cases c <;> rfl
@[simp] theorem State.advanceOrSkip_resetLines (s : State) (c : Bool) : (s.advanceOrSkip c).resetLines = s.resetLines := by cases c <;> rfl
@[simp] theorem State.advanceOrSkip_answers (s : State) (c : Bool) : (s.advanceOrSkip c).answers = s.answers := by cases c <;> rfl
@[simp] theorem State.advanceOrSkip_draws (s : State) (c : Bool) : (s.advanceOrSkip c).draws = s.draws := by cases c <;> rfl

/-! ### setFlags -/

@[simp] theorem State.setFlags_variant (s : State) (u : FlagUpdate) : (s.setFlags u).variant = s.variant := rfl
@[simp] theorem State.setFlags_wdtEnabled (s : State) (u : FlagUpdate) : (s.setFlags u).wdtEnabled = s.wdtEnabled := rfl
@[simp] theorem State.setFlags_prog (s : State) (u : FlagUpdate) : (s.setFlags u).prog = s.prog := rfl
@[simp] theorem State.setFlags_w (s : State) (u : FlagUpdate) : (s.setFlags u).w = s.w := rfl
@[simp] theorem State.setFlags_pc (s : State) (u : FlagUpdate) : (s.setFlags u).pc = s.pc := rfl
@[simp] theorem State.setFlags_fsr (s : State) (u : FlagUpdate) : (s.setFlags u).fsr = s.fsr := rfl
@[simp] theorem State.setFlags_tmr0 (s : State) (u : FlagUpdate) : (s.setFlags u).tmr0 = s.tmr0 := rfl
@[simp] theorem State.setFlags_optionReg (s : State) (u : FlagUpdate) : (s.setFlags u).optionReg = s.optionReg := rfl
@[simp] theorem State.setFlags_tris (s : State) (u : FlagUpdate) : (s.setFlags u).tris = s.tris := rfl
@[simp] theorem State.setFlags_lat (s : State) (u : FlagUpdate) : (s.setFlags u).lat = s.lat := rfl
@[simp] theorem State.setFlags_ram (s : State) (u : FlagUpdate) : (s.setFlags u).ram = s.ram := rfl
@[simp] theorem State.setFlags_stk0 (s : State) (u : FlagUpdate) : (s.setFlags u).stk0 = s.stk0 := rfl
@[simp] theorem State.setFlags_stk1 (s : State) (u : FlagUpdate) : (s.setFlags u).stk1 = s.stk1 := rfl
@[simp] theorem State.setFlags_sp (s : State) (u : FlagUpdate) : (s.setFlags u).sp = s.sp := rfl
@[simp] theorem State.setFlags_wdt (s : State) (u : FlagUpdate) : (s.setFlags u).wdt = s.wdt := rfl
@[simp] theorem State.setFlags_pre (s : State) (u : FlagUpdate) : (s.setFlags u).pre = s.pre := rfl
@[simp] theorem State.setFlags_asleep (s : State) (u : FlagUpdate) : (s.setFlags u).asleep = s.asleep := rfl
@[simp] theorem State.setFlags_resetLines (s : State) (u : FlagUpdate) : (s.setFlags u).resetLines = s.resetLines := rfl
@[simp] theorem State.setFlags_answers (s : State) (u : FlagUpdate) : (s.setFlags u).answers = s.answers := rfl
@[simp] theorem State.setFlags_draws (s : State) (u : FlagUpdate) : (s.setFlags u).draws = s.draws := rfl

/-! ### finish -/

@[simp] theorem State.finish_variant (s : State) (r : FileReg) : (s.finish r).variant = s.variant := by unfold State.finish; split <;> rfl
@[simp] theorem State.finish_wdtEnabled (s : State) (r : FileReg) : (s.finish r).wdtEnabled = s.wdtEnabled := by unfold State.finish; split <;> rfl
@[simp] theorem State.finish_prog (s : State) (r : FileReg) : (s.finish r).prog = s.prog := by unfold State.finish; split <;> rfl
@[simp] theorem State.finish_w (s : State) (r : FileReg) : (s.finish r).w = s.w := by unfold State.finish; split <;> rfl
@[simp] theorem State.finish_status (s : State) (r : FileReg) : (s.finish r).status = s.status := by unfold State.finish; split <;> rfl
@[simp] theorem State.finish_fsr (s : State) (r : FileReg) : (s.finish r).fsr = s.fsr := by unfold State.finish; split <;> rfl
@[simp] theorem State.finish_tmr0 (s : State) (r : FileReg) : (s.finish r).tmr0 = s.tmr0 := by unfold State.finish; split <;> rfl
@[simp] theorem State.finish_optionReg (s : State) (r : FileReg) : (s.finish r).optionReg = s.optionReg := by unfold State.finish; split <;> rfl
@[simp] theorem State.finish_tris (s : State) (r : FileReg) : (s.finish r).tris = s.tris := by unfold State.finish; split <;> rfl
@[simp] theorem State.finish_lat (s : State) (r : FileReg) : (s.finish r).lat = s.lat := by unfold State.finish; split <;> rfl
@[simp] theorem State.finish_ram (s : State) (r : FileReg) : (s.finish r).ram = s.ram := by unfold State.finish; split <;> rfl
@[simp] theorem State.finish_stk0 (s : State) (r : FileReg) : (s.finish r).stk0 = s.stk0 := by unfold State.finish; split <;> rfl
@[simp] theorem State.finish_stk1 (s : State) (r : FileReg) : (s.finish r).stk1 = s.stk1 := by unfold State.finish; split <;> rfl
@[simp] theorem State.finish_sp (s : State) (r : FileReg) : (s.finish r).sp = s.sp := by unfold State.finish; split <;> rfl
@[simp] theorem State.finish_wdt (s : State) (r : FileReg) : (s.finish r).wdt = s.wdt := by unfold State.finish; split <;> rfl
@[simp] theorem State.finish_pre (s : State) (r : FileReg) : (s.finish r).pre = s.pre := by unfold State.finish; split <;> rfl
@[simp] theorem State.finish_asleep (s : State) (r : FileReg) : (s.finish r).asleep = s.asleep := by unfold State.finish; split <;> rfl
@[simp] theorem State.finish_resetLines (s : State) (r : FileReg) : (s.finish r).resetLines = s.resetLines := by unfold State.finish; split <;> rfl
@[simp] theorem State.finish_answers (s : State) (r : FileReg) : (s.finish r).answers = s.answers := by unfold State.finish; split <;> rfl
@[simp] theorem State.finish_draws (s : State) (r : FileReg) : (s.finish r).draws = s.draws := by unfold State.finish; split <;> rfl

/-! ### passBoundary -/

@[simp] theorem State.passBoundary_variant (s : State) : (s.passBoundary).variant = s.variant := by unfold State.passBoundary; split <;> rfl
@[simp] theorem State.passBoundary_wdtEnabled (s : State) : (s.passBoundary).wdtEnabled = s.wdtEnabled := by unfold State.passBoundary; split <;> rfl
@[simp] theorem State.passBoundary_prog (s : State) : (s.passBoundary).prog = s.prog := by unfold State.passBoundary; split <;> rfl
@[simp] theorem State.passBoundary_w (s : State) : (s.passBoundary).w = s.w := by unfold State.passBoundary; split <;> rfl
@[simp] theorem State.passBoundary_pc (s : State) : (s.passBoundary).pc = s.pc := by unfold State.passBoundary; split <;> rfl
@[simp] theorem State.passBoundary_status (s : State) : (s.passBoundary).status = s.status := by unfold State.passBoundary; split <;> rfl
@[simp] theorem State.passBoundary_fsr (s : State) : (s.passBoundary).fsr = s.fsr := by unfold State.passBoundary; split <;> rfl
@[simp] theorem State.passBoundary_tmr0 (s : State) : (s.passBoundary).tmr0 = s.tmr0 := by unfold State.passBoundary; split <;> rfl
@[simp] theorem State.passBoundary_optionReg (s : State) : (s.passBoundary).optionReg = s.optionReg := by unfold State.passBoundary; split <;> rfl
@[simp] theorem State.passBoundary_tris (s : State) : (s.passBoundary).tris = s.tris := by unfold State.passBoundary; split <;> rfl
@[simp] theorem State.passBoundary_lat (s : State) : (s.passBoundary).lat = s.lat := by unfold State.passBoundary; split <;> rfl
@[simp] theorem State.passBoundary_ram (s : State) : (s.passBoundary).ram = s.ram := by unfold State.passBoundary; split <;> rfl
@[simp] theorem State.passBoundary_stk0 (s : State) : (s.passBoundary).stk0 = s.stk0 := by unfold State.passBoundary; split <;> rfl
@[simp] theorem State.passBoundary_stk1 (s : State) : (s.passBoundary).stk1 = s.stk1 := by unfold State.passBoundary; split <;> rfl
@[simp] theorem State.passBoundary_sp (s : State) : (s.passBoundary).sp = s.sp := by unfold State.passBoundary; split <;> rfl
@[simp] theorem State.passBoundary_wdt (s : State) : (s.passBoundary).wdt = s.wdt := by unfold State.passBoundary; split <;> rfl
@[simp] theorem State.passBoundary_pre (s : State) : (s.passBoundary).pre = s.pre := by unfold State.passBoundary; split <;> rfl
@[simp] theorem State.passBoundary_asleep (s : State) : (s.passBoundary).asleep = s.asleep := by unfold State.passBoundary; split <;> rfl
@[simp] theorem State.passBoundary_resetLines (s : State) : (s.passBoundary).resetLines = s.resetLines := by unfold State.passBoundary; split <;> rfl
@[simp] theorem State.passBoundary_answers (s : State) : (s.passBoundary).answers = s.answers := by unfold State.passBoundary; split <;> rfl

/-! ### placeWord -/

@[simp] theorem State.placeWord_variant (s : State) (x : InstrWord) : (s.placeWord x).variant = s.variant := rfl
@[simp] theorem State.placeWord_wdtEnabled (s : State) (x : InstrWord) : (s.placeWord x).wdtEnabled = s.wdtEnabled := rfl
@[simp] theorem State.placeWord_w (s : State) (x : InstrWord) : (s.placeWord x).w = s.w := rfl
@[simp] theorem State.placeWord_pc (s : State) (x : InstrWord) : (s.placeWord x).pc = s.pc := rfl
@[simp] theorem State.placeWord_status (s : State) (x : InstrWord) : (s.placeWord x).status = s.status := rfl
@[simp] theorem State.placeWord_fsr (s : State) (x : InstrWord) : (s.placeWord x).fsr = s.fsr := rfl
@[simp] theorem State.placeWord_tmr0 (s : State) (x : InstrWord) : (s.placeWord x).tmr0 = s.tmr0 := rfl
@[simp] theorem State.placeWord_optionReg (s : State) (x : InstrWord) : (s.placeWord x).optionReg = s.optionReg := rfl
@[simp] theorem State.placeWord_tris (s : State) (x : InstrWord) : (s.placeWord x).tris = s.tris := rfl
@[simp] theorem State.placeWord_lat (s : State) (x : InstrWord) : (s.placeWord x).lat = s.lat := rfl
@[simp] theorem State.placeWord_ram (s : State) (x : InstrWord) : (s.placeWord x).ram = s.ram := rfl
@[simp] theorem State.placeWord_stk0 (s : State) (x : InstrWord) : (s.placeWord x).stk0 = s.stk0 := rfl
@[simp] theorem State.placeWord_stk1 (s : State) (x : InstrWord) : (s.placeWord x).stk1 = s.stk1 := rfl
@[simp] theorem State.placeWord_sp (s : State) (x : InstrWord) : (s.placeWord x).sp = s.sp := rfl
@[simp] theorem State.placeWord_wdt (s : State) (x : InstrWord) : (s.placeWord x).wdt = s.wdt := rfl
@[simp] theorem State.placeWord_pre (s : State) (x : InstrWord) : (s.placeWord x).pre = s.pre := rfl
@[simp] theorem State.placeWord_answers (s : State) (x : InstrWord) : (s.placeWord x).answers = s.answers := rfl
@[simp] theorem State.placeWord_draws (s : State) (x : InstrWord) : (s.placeWord x).draws = s.draws := rfl

/-! ### What the updates set -/

@[simp] theorem State.advance_pc (s : State) : s.advance.pc = s.pcPlus 1 := rfl
@[simp] theorem State.skip_pc (s : State) : s.skip.pc = s.pcPlus 2 := rfl
@[simp] theorem State.setFlags_status (s : State) (u : FlagUpdate) : (s.setFlags u).status = u.apply s.status := rfl
theorem State.advanceOrSkip_pc (s : State) (c : Bool) :
    (s.advanceOrSkip c).pc = if c then s.pcPlus 2 else s.pcPlus 1 := by cases c <;> rfl
theorem State.finish_pc (s : State) (r : FileReg) :
    (s.finish r).pc = if r = .pcl then s.pc else s.pcPlus 1 := by unfold State.finish; split <;> rfl
@[simp] theorem State.placeWord_prog (s : State) (x : InstrWord) :
    (s.placeWord x).prog = s.prog.write s.pc.toNat x := rfl
@[simp] theorem State.placeWord_asleep (s : State) (x : InstrWord) : (s.placeWord x).asleep = false := rfl
@[simp] theorem State.placeWord_resetLines (s : State) (x : InstrWord) : (s.placeWord x).resetLines = .idle := rfl
theorem State.passBoundary_of_disabled {s : State} (h : s.wdtEnabled = false) : s.passBoundary = s := by
  simp [State.passBoundary, h]
theorem State.passBoundary_of_enabled {s : State} (h : s.wdtEnabled = true) :
    s.passBoundary = { s with draws := s.draws + 1 } := by
  simp [State.passBoundary, h]

/-! ### Port files -/

@[simp] theorem PortFile.get_set (x : PortFile) (p q : Port) (v : Byte) :
    (x.set p v).get q = if q = p then v else x.get q := by cases p <;> cases q <;> rfl
@[simp] theorem PortFile.get_build (g : Port → Byte) (p : Port) : (PortFile.build g).get p = g p := by cases p <;> rfl

end Sys2Proof.Machine
end

