-- ==== Sys2Proof/Laws/Operands.lean ====
section
/-! SUPPORT. What each shared operation can do, said once: drawing an answer, reading and writing a file register,
ending an instruction, pushing and popping. -/

namespace Sys2Proof.Machine

/-! ### Draws and reads -/

/-- The value of a draw: the next given answer, else a free value (R18). -/
theorem State.draw_fst (s : State) (g : Nat → Byte) : (s.draw g).1 = s.answers.headD (g s.draws) := by
  unfold State.draw; cases s.answers <;> rfl

/-- A draw changes only the model's own count of answers. -/
theorem State.draw_snd (s : State) (g : Nat → Byte) :
    ∃ as n, (s.draw g).2 = { s with answers := as, draws := n } := by
  unfold State.draw
  split
  · exact ⟨_, s.draws, rfl⟩
  · exact ⟨s.answers, _, rfl⟩

/-- A draw uses up the first given answer, or one free value when there is none. -/
theorem State.draw_inputs (s : State) (g : Nat → Byte) :
    (s.draw g).2.answers = s.answers.tail
      ∧ (s.draw g).2.draws = if s.answers = [] then s.draws + 1 else s.draws := by
  unfold State.draw
  cases s.answers <;> simp

/-- A read changes only the model's own count of answers (R61). -/
theorem State.readReg_snd (s : State) (r : FileReg) :
    ∃ as n, (s.readReg r).2 = { s with answers := as, draws := n } := by
  cases r with
  | tmr0 => exact s.draw_snd _
  | port p => exact s.draw_snd _
  | _ => exact ⟨s.answers, s.draws, rfl⟩

/-- A read of anything but TMR0 or a port changes nothing (R61). -/
theorem State.readReg_snd_of_ne (s : State) (r : FileReg) (h1 : r ≠ .tmr0) (h2 : ∀ p, r ≠ .port p) :
    (s.readReg r).2 = s := by
  cases r with
  | tmr0 => exact absurd rfl h1
  | port p => exact absurd rfl (h2 p)
  | _ => rfl

/-! ### Ends of instructions -/

/-- An update that writes no flag is `FlagUpdate.keep`. -/
theorem FlagUpdate.isNone_iff (u : FlagUpdate) : u.isNone = true ↔ u.c = none ∧ u.dc = none ∧ u.z = none := by
  obtain ⟨c, dc, z⟩ := u
  cases c <;> cases dc <;> cases z <;> simp [FlagUpdate.isNone]

/-- Bits 7..5 of two bytes agree when the three bits do. -/
theorem upper_eq {a b : Byte} (h : ∀ j, 5 ≤ j → a.getLsbD j = b.getLsbD j) : a.extractLsb' 5 3 = b.extractLsb' 5 3 := by
  apply BitVec.eq_of_getLsbD_eq
  intro i hi
  rw [BitVec.getLsbD_extractLsb', BitVec.getLsbD_extractLsb', h (5 + i) (by omega)]

/-- STATUS after a write of `y` to `r` (or to nothing that is STATUS) and the flags of `u` (R29). -/
theorem status_holds {s t : State} {r : Option FileReg} {y : Byte} {u : FlagUpdate}
    (h : t.status = u.apply (if r = some .status then statusWrite s.status y (!u.isNone) else s.status)) :
    StatusHolds s t r y u.c u.dc u.z := by
  have hb : ∀ j, t.status.getLsbD j = _ := fun j => by rw [h, FlagUpdate.apply_getLsbD]
  have hn := u.isNone_iff
  by_cases hr : r = some .status
  · simp only [hr, if_true, statusWrite_getLsbD] at hb
    refine ⟨?_, ?_, ?_, ?_, ?_, ?_⟩
    · rw [if_pos hr]
      refine upper_eq fun j hj => ?_
      rw [hb j, if_neg (by omega), if_neg (by omega), if_neg (by omega), if_pos (.inl hj)]
    · rw [hb 4]; simp
    · rw [hb 3]; simp
    all_goals
      unfold FlagHolds
      rw [hb]
      obtain ⟨c, dc, z⟩ := u
      cases c <;> cases dc <;> cases z <;> simp [hr, FlagUpdate.isNone]
  · simp only [hr, if_false] at hb
    refine ⟨?_, ?_, ?_, ?_, ?_, ?_⟩
    · rw [if_neg hr]
      refine upper_eq fun j hj => ?_
      rw [hb j, if_neg (by omega), if_neg (by omega), if_neg (by omega)]
    · rw [hb 4]; rfl
    · rw [hb 3]; rfl
    all_goals
      unfold FlagHolds
      rw [hb]
      obtain ⟨c, dc, z⟩ := u
      cases c <;> cases dc <;> cases z <;> simp [hr]

/-- A read leaves the state `Leaves` starts from as it is, but for the model's own count of answers. -/
theorem Leaves.of_read {s t : State} {q : FileReg} {r : Option FileReg} {y : Byte} {c dc z : Option Bool} {n : Nat}
    (h : Leaves (s.readReg q).2 t r y c dc z n) : Leaves s t r y c dc z n := by
  obtain ⟨as, k, e⟩ := s.readReg_snd q
  rw [e] at h
  exact h

/-- Ending an instruction whose result goes to W (R90). -/
theorem State.commitW_leaves (s : State) (y : Byte) (u : FlagUpdate) : Leaves s (s.commitW y u) none y u.c u.dc u.z 1 :=
  ⟨rfl, ⟨rfl, rfl, fun _ => rfl, fun _ => rfl⟩, status_holds rfl, State.pcPlus_toNat s 1,
    ⟨rfl, rfl, rfl⟩, ⟨rfl, rfl, rfl⟩, ⟨rfl, rfl⟩, ⟨rfl, rfl⟩, rfl, rfl⟩

/-- A write of `y` to the file register `r`, then flags and a program counter of its own where `r` is not PCL. -/
theorem State.writeReg_leaves (s t : State) (r : FileReg) (y : Byte) (u : FlagUpdate) (n : ProgAddr)
    (ht : t = { (s.writeReg r y (!u.isNone)).setFlags u with
      pc := if r = .pcl then s.lowTarget y else s.pcPlus n }) :
    Leaves s t (some r) y u.c u.dc u.z n.toNat := by
  subst ht
  refine ⟨?_, ⟨?_, ?_, fun p => ?_, fun a => ?_⟩, status_holds ?_, ?_, ?_⟩
  · cases r <;> rfl
  · cases r <;> rfl
  · cases r <;> rfl
  · cases r with
    | port q =>
      simp only [State.setFlags, State.writeReg, PortFile.get_set, Option.some.injEq, FileReg.port.injEq]
      by_cases h : p = q
      · simp [h]
      · simp [h, Ne.symm h]
    | _ => rfl
  · cases r with
    | storage b =>
      simp only [State.setFlags, State.writeReg, Memory.read_write, Option.some.injEq, FileReg.storage.injEq]
      by_cases h : a = b
      · simp [h]
      · simp [h, Ne.symm h]
    | _ => rfl
  · cases r <;> rfl
  · by_cases h : r = .pcl
    · simp only [h, if_true]; exact s.lowTarget_toNat y
    · have h' : ¬ some r = some FileReg.pcl := by simpa using h
      simp only [h, h', if_false]; exact s.pcPlus_toNat n
  · cases r <;> exact ⟨⟨rfl, rfl, rfl⟩, ⟨rfl, rfl, rfl⟩, ⟨rfl, rfl⟩, ⟨rfl, rfl⟩, rfl, rfl⟩

/-- Ending an instruction whose result goes to a file register (R90). -/
theorem State.commitFile_leaves (s : State) (r : FileReg) (y : Byte) (u : FlagUpdate) :
    Leaves s (s.commitFile r y u) (some r) y u.c u.dc u.z 1 := by
  refine s.writeReg_leaves _ r y u 1 ?_
  cases r <;> rfl

/-- Ending an instruction with a destination bit (R15, R90). -/
theorem State.commit_leaves (s : State) (d : Dest) (r : FileReg) (y : Byte) (u : FlagUpdate) :
    Leaves s (s.commit d r y u) (destReg d r) y u.c u.dc u.z 1 := by
  cases d with
  | w => exact s.commitW_leaves y u
  | f => exact s.commitFile_leaves r y u

/-- The end of an instruction uses up no answer of the environment. -/
theorem State.commitFile_inputs (s : State) (r : FileReg) (y : Byte) (u : FlagUpdate) :
    (s.commitFile r y u).answers = s.answers ∧ (s.commitFile r y u).draws = s.draws := by cases r <;> exact ⟨rfl, rfl⟩

/-- The same with a destination bit. -/
theorem State.commit_inputs (s : State) (d : Dest) (r : FileReg) (y : Byte) (u : FlagUpdate) :
    (s.commit d r y u).answers = s.answers ∧ (s.commit d r y u).draws = s.draws := by
  cases d with
  | w => exact ⟨rfl, rfl⟩
  | f => exact s.commitFile_inputs r y u

/-- An instruction that reads its file operand and writes a result with flags (R90). -/
theorem State.fileOp_leaves (s : State) (f : FileAddr) (d : Dest) (g : Byte → Byte × FlagUpdate) :
    Leaves s (s.fileOp f d g) (destReg d (s.sel f)) (g (s.fileValue f)).1 (g (s.fileValue f)).2.c
      (g (s.fileValue f)).2.dc (g (s.fileValue f)).2.z 1 :=
  ((s.readReg (s.sel f)).2.commit_leaves d (s.sel f) _ _).of_read

/-- It uses up the answers its one read uses up. -/
theorem State.fileOp_inputs (s : State) (f : FileAddr) (d : Dest) (g : Byte → Byte × FlagUpdate) :
    InputsAfterRead s (s.fileOp f d g) f := (s.readReg (s.sel f)).2.commit_inputs d (s.sel f) _ _

/-- DECFSZ and INCFSZ: refused with PCL as destination, otherwise the result is written without flags and the next
word is skipped when it is 0 (R140, R141, R144). -/
theorem State.countSkip_cases (s : State) (f : FileAddr) (d : Dest) (g : Byte → Byte) :
    (destReg d (s.sel f) = some .pcl ∧ s.countSkip f d g = .fault (.refusedForm "skip with PCL destination"))
      ∨ (destReg d (s.sel f) ≠ some .pcl ∧ ∃ t, s.countSkip f d g = .next t
          ∧ Leaves s t (destReg d (s.sel f)) (g (s.fileValue f)) none none none
              (if g (s.fileValue f) = 0 then 2 else 1)
          ∧ InputsAfterRead s t f) := by
  obtain ⟨as, k, e⟩ := s.readReg_snd (s.sel f)
  by_cases hp : d = .f ∧ s.sel f = .pcl
  · left
    refine ⟨by simp [destReg, hp.1, hp.2], ?_⟩
    simp [State.countSkip, hp]
  · right
    have hne : destReg d (s.sel f) ≠ some .pcl := by
      cases d
      · simp [destReg]
      · simpa [destReg] using hp
    refine ⟨hne, ?_⟩
    unfold State.countSkip
    simp only [hp, if_false]
    have hy : (s.readReg (s.sel f)).1 = s.fileValue f := rfl
    cases d with
    | w =>
      refine ⟨_, rfl, ?_, ?_⟩
      · simp only [e, hy]
        by_cases h0 : g (s.fileValue f) = 0
        · simp only [h0, decide_true, if_true]
          exact ⟨rfl, ⟨rfl, rfl, fun _ => rfl, fun _ => rfl⟩, status_holds (u := FlagUpdate.keep) rfl,
            State.pcPlus_toNat s 2, ⟨rfl, rfl, rfl⟩, ⟨rfl, rfl, rfl⟩, ⟨rfl, rfl⟩, ⟨rfl, rfl⟩, rfl, rfl⟩
        · simp only [h0, decide_false, if_false]
          exact ⟨rfl, ⟨rfl, rfl, fun _ => rfl, fun _ => rfl⟩, status_holds (u := FlagUpdate.keep) rfl,
            State.pcPlus_toNat s 1, ⟨rfl, rfl, rfl⟩, ⟨rfl, rfl, rfl⟩, ⟨rfl, rfl⟩, ⟨rfl, rfl⟩, rfl, rfl⟩
      · simp only [hy]
        exact ⟨by simp, by simp⟩
    | f =>
      have hpcl : s.sel f ≠ .pcl := fun h => hp ⟨rfl, h⟩
      refine ⟨_, rfl, ?_, ?_⟩
      · simp only [hy]
        refine Leaves.of_read (q := s.sel f) ?_
        by_cases h0 : g (s.fileValue f) = 0
        · rw [if_pos h0]
          refine (s.readReg (s.sel f)).2.writeReg_leaves _ (s.sel f) _ FlagUpdate.keep 2 ?_
          rw [if_neg hpcl, h0]
          cases hs : s.sel f <;> first | rfl | exact absurd hs hpcl
        · rw [if_neg h0]
          refine (s.readReg (s.sel f)).2.writeReg_leaves _ (s.sel f) _ FlagUpdate.keep 1 ?_
          rw [if_neg hpcl]
          simp only [h0, decide_false]
          cases hs : s.sel f <;> first | rfl | exact absurd hs hpcl
      · simp only [hy]
        refine ⟨?_, ?_⟩ <;> simp only [State.advanceOrSkip_answers, State.advanceOrSkip_draws] <;>
          cases s.sel f <;> rfl

/-- BTFSC and BTFSS write nothing (R142, R143): only `pc` and the model's count of answers change. -/
theorem State.testSkip_eq (s : State) (f : FileAddr) (b : BitIndex) (want : Bool) :
    { s.testSkip f b want with pc := s.pc, answers := s.answers, draws := s.draws } = s
      ∧ (s.testSkip f b want).pc.toNat = nextAddr s (if (s.fileValue f).getLsbD b.toNat = want then 2 else 1)
      ∧ InputsAfterRead s (s.testSkip f b want) f := by
  obtain ⟨as, k, e⟩ := s.readReg_snd (s.sel f)
  have hy : (s.readReg (s.sel f)).1 = s.fileValue f := rfl
  refine ⟨?_, ?_, ?_⟩
  · simp only [State.testSkip, e]
    cases (s.readReg (s.sel f)).1.getLsbD b.toNat == want <;> rfl
  · simp only [State.testSkip, e, hy, State.advanceOrSkip_pc]
    by_cases h : (s.fileValue f).getLsbD b.toNat = want
    · simp only [h, beq_self_eq_true, if_true]; exact s.pcPlus_toNat 2
    · have h' : ((s.fileValue f).getLsbD b.toNat == want) = false := by simpa using h
      simp only [h, h', if_false, Bool.false_eq_true]; exact s.pcPlus_toNat 1
  · exact ⟨by simp [State.testSkip], by simp [State.testSkip]⟩

/-! ### The return stack and TRIS -/

/-- `Push(v)`: the fault on a full stack, otherwise the entry on top (R41). -/
theorem State.push_cases (s : State) (v : ProgAddr) :
    (2 ≤ s.sp ∧ s.push v = .error .stackOverflow)
      ∨ (s.sp < 2 ∧ s.push v = .ok { s with stk1 := s.stk0, stk0 := v, sp := s.sp + 1 }) := by
  by_cases h : 2 ≤ s.sp
  · exact .inl ⟨h, by simp [State.push, stackDepth, h]⟩
  · exact .inr ⟨by omega, by simp [State.push, stackDepth, h]⟩

/-- `Pop()`: the fault on an empty stack, otherwise the top entry (R42). -/
theorem State.pop_cases (s : State) :
    (s.sp = 0 ∧ s.pop = .error .stackUnderflow)
      ∨ (0 < s.sp ∧ s.pop = .ok (s.stk0, { s with stk0 := s.stk1, sp := s.sp - 1 })) := by
  by_cases h : s.sp = 0
  · exact .inl ⟨h, by simp [State.pop, h]⟩
  · exact .inr ⟨by omega, by simp [State.pop, h]⟩

/-- TRIS: the port's register where the variant has it, an unassigned word otherwise (R126). -/
theorem State.loadTris_cases (s : State) (p : Port) :
    (s.variant.hasPort p = true
        ∧ s.loadTris p = .next ({ s with tris := s.tris.set p (s.w &&& p.mask) } : State).advance)
      ∨ (s.variant.hasPort p = false ∧ s.loadTris p = .fault (.illegalEncoding (BitVec.ofNat 12 p.fileAddr))) := by
  cases h : s.variant.hasPort p
  · exact .inr ⟨rfl, by simp [State.loadTris, h]⟩
  · exact .inl ⟨rfl, by simp [State.loadTris, h]⟩

end Sys2Proof.Machine
end

