-- ==== Sys2Proof/Laws/PerInstr.lean ====
section
/-! SUPPORT. A statement about every instruction, one lemma a constructor: its word fits its row of
spec/opcode_table.json, that is, has the row's value in the bits the row fixes. -/

namespace Sys2Proof.Laws

/-- The mask and the match of the row of spec/opcode_table.json. -/
def opcodeRow : Instr → InstrWord × InstrWord
  | .nop => (0xFFF, 0x000)
  | .option => (0xFFF, 0x002)
  | .sleep => (0xFFF, 0x003)
  | .clrwdt => (0xFFF, 0x004)
  | .trisA => (0xFFF, 0x005)
  | .trisB => (0xFFF, 0x006)
  | .trisC => (0xFFF, 0x007)
  | .trisD => (0xFFF, 0x008)
  | .trisE => (0xFFF, 0x009)
  | .movwf _ => (0xFE0, 0x020)
  | .clrw => (0xFFF, 0x040)
  | .clrf _ => (0xFE0, 0x060)
  | .subwf _ _ => (0xFC0, 0x080)
  | .decf _ _ => (0xFC0, 0x0C0)
  | .iorwf _ _ => (0xFC0, 0x100)
  | .andwf _ _ => (0xFC0, 0x140)
  | .xorwf _ _ => (0xFC0, 0x180)
  | .addwf _ _ => (0xFC0, 0x1C0)
  | .movf _ _ => (0xFC0, 0x200)
  | .comf _ _ => (0xFC0, 0x240)
  | .incf _ _ => (0xFC0, 0x280)
  | .decfsz _ _ => (0xFC0, 0x2C0)
  | .rrf _ _ => (0xFC0, 0x300)
  | .rlf _ _ => (0xFC0, 0x340)
  | .swapf _ _ => (0xFC0, 0x380)
  | .incfsz _ _ => (0xFC0, 0x3C0)
  | .bcf _ _ => (0xF00, 0x400)
  | .bsf _ _ => (0xF00, 0x500)
  | .btfsc _ _ => (0xF00, 0x600)
  | .btfss _ _ => (0xF00, 0x700)
  | .retlw _ => (0xF00, 0x800)
  | .call _ => (0xF00, 0x900)
  | .goto _ => (0xE00, 0xA00)
  | .movlw _ => (0xF00, 0xC00)
  | .iorlw _ => (0xF00, 0xD00)
  | .andlw _ => (0xF00, 0xE00)
  | .xorlw _ => (0xF00, 0xF00)

/-- The word of the instruction fits its row. -/
def WordFitsRow.Statement (i : Instr) : Prop := encode i &&& (opcodeRow i).1 = (opcodeRow i).2

theorem WordFitsRow.nop : WordFitsRow.Statement .nop := rfl
theorem WordFitsRow.option : WordFitsRow.Statement .option := rfl
theorem WordFitsRow.sleep : WordFitsRow.Statement .sleep := rfl
theorem WordFitsRow.clrwdt : WordFitsRow.Statement .clrwdt := rfl
theorem WordFitsRow.trisA : WordFitsRow.Statement .trisA := rfl
theorem WordFitsRow.trisB : WordFitsRow.Statement .trisB := rfl
theorem WordFitsRow.trisC : WordFitsRow.Statement .trisC := rfl
theorem WordFitsRow.trisD : WordFitsRow.Statement .trisD := rfl
theorem WordFitsRow.trisE : WordFitsRow.Statement .trisE := rfl
theorem WordFitsRow.movwf (f : FileAddr) : WordFitsRow.Statement (.movwf f) := by
  revert f; unfold WordFitsRow.Statement; decide
theorem WordFitsRow.clrw : WordFitsRow.Statement .clrw := rfl
theorem WordFitsRow.clrf (f : FileAddr) : WordFitsRow.Statement (.clrf f) := by
  revert f; unfold WordFitsRow.Statement; decide
theorem WordFitsRow.subwf (f : FileAddr) (d : Dest) : WordFitsRow.Statement (.subwf f d) := by
  cases d <;> revert f <;> unfold WordFitsRow.Statement <;> decide
theorem WordFitsRow.decf (f : FileAddr) (d : Dest) : WordFitsRow.Statement (.decf f d) := by
  cases d <;> revert f <;> unfold WordFitsRow.Statement <;> decide
theorem WordFitsRow.iorwf (f : FileAddr) (d : Dest) : WordFitsRow.Statement (.iorwf f d) := by
  cases d <;> revert f <;> unfold WordFitsRow.Statement <;> decide
theorem WordFitsRow.andwf (f : FileAddr) (d : Dest) : WordFitsRow.Statement (.andwf f d) := by
  cases d <;> revert f <;> unfold WordFitsRow.Statement <;> decide
theorem WordFitsRow.xorwf (f : FileAddr) (d : Dest) : WordFitsRow.Statement (.xorwf f d) := by
  cases d <;> revert f <;> unfold WordFitsRow.Statement <;> decide
theorem WordFitsRow.addwf (f : FileAddr) (d : Dest) : WordFitsRow.Statement (.addwf f d) := by
  cases d <;> revert f <;> unfold WordFitsRow.Statement <;> decide
theorem WordFitsRow.movf (f : FileAddr) (d : Dest) : WordFitsRow.Statement (.movf f d) := by
  cases d <;> revert f <;> unfold WordFitsRow.Statement <;> decide
theorem WordFitsRow.comf (f : FileAddr) (d : Dest) : WordFitsRow.Statement (.comf f d) := by
  cases d <;> revert f <;> unfold WordFitsRow.Statement <;> decide
theorem WordFitsRow.incf (f : FileAddr) (d : Dest) : WordFitsRow.Statement (.incf f d) := by
  cases d <;> revert f <;> unfold WordFitsRow.Statement <;> decide
theorem WordFitsRow.decfsz (f : FileAddr) (d : Dest) : WordFitsRow.Statement (.decfsz f d) := by
  cases d <;> revert f <;> unfold WordFitsRow.Statement <;> decide
theorem WordFitsRow.rrf (f : FileAddr) (d : Dest) : WordFitsRow.Statement (.rrf f d) := by
  cases d <;> revert f <;> unfold WordFitsRow.Statement <;> decide
theorem WordFitsRow.rlf (f : FileAddr) (d : Dest) : WordFitsRow.Statement (.rlf f d) := by
  cases d <;> revert f <;> unfold WordFitsRow.Statement <;> decide
theorem WordFitsRow.swapf (f : FileAddr) (d : Dest) : WordFitsRow.Statement (.swapf f d) := by
  cases d <;> revert f <;> unfold WordFitsRow.Statement <;> decide
theorem WordFitsRow.incfsz (f : FileAddr) (d : Dest) : WordFitsRow.Statement (.incfsz f d) := by
  cases d <;> revert f <;> unfold WordFitsRow.Statement <;> decide
theorem WordFitsRow.bcf (f : FileAddr) (b : BitIndex) : WordFitsRow.Statement (.bcf f b) := by
  revert f b; unfold WordFitsRow.Statement; decide
theorem WordFitsRow.bsf (f : FileAddr) (b : BitIndex) : WordFitsRow.Statement (.bsf f b) := by
  revert f b; unfold WordFitsRow.Statement; decide
theorem WordFitsRow.btfsc (f : FileAddr) (b : BitIndex) : WordFitsRow.Statement (.btfsc f b) := by
  revert f b; unfold WordFitsRow.Statement; decide
theorem WordFitsRow.btfss (f : FileAddr) (b : BitIndex) : WordFitsRow.Statement (.btfss f b) := by
  revert f b; unfold WordFitsRow.Statement; decide
set_option maxRecDepth 4000 in
theorem WordFitsRow.retlw (k : Byte) : WordFitsRow.Statement (.retlw k) := by
  revert k; unfold WordFitsRow.Statement; decide
set_option maxRecDepth 4000 in
theorem WordFitsRow.call (k : Byte) : WordFitsRow.Statement (.call k) := by
  revert k; unfold WordFitsRow.Statement; decide
set_option maxRecDepth 8000 in
theorem WordFitsRow.goto (k : BitVec 9) : WordFitsRow.Statement (.goto k) := by
  revert k; unfold WordFitsRow.Statement; decide
set_option maxRecDepth 4000 in
theorem WordFitsRow.movlw (k : Byte) : WordFitsRow.Statement (.movlw k) := by
  revert k; unfold WordFitsRow.Statement; decide
set_option maxRecDepth 4000 in
theorem WordFitsRow.iorlw (k : Byte) : WordFitsRow.Statement (.iorlw k) := by
  revert k; unfold WordFitsRow.Statement; decide
set_option maxRecDepth 4000 in
theorem WordFitsRow.andlw (k : Byte) : WordFitsRow.Statement (.andlw k) := by
  revert k; unfold WordFitsRow.Statement; decide
set_option maxRecDepth 4000 in
theorem WordFitsRow.xorlw (k : Byte) : WordFitsRow.Statement (.xorlw k) := by
  revert k; unfold WordFitsRow.Statement; decide

end Sys2Proof.Laws
end

