-- ==== Sys2Proof/Laws/Step.lean ====
section
/-! SUPPORT. What an instruction and a step can do, said once: if it answers a next state, then one of these cases. -/

namespace Sys2Proof.Machine

/-! ### Selection -/

set_option maxRecDepth 8000 in
/-- A data address of the variant selects a storage byte only under that byte's own address. -/
theorem selectReg_isStorage (v : Variant) (a : Byte) (ha : a.toNat < 2 ^ v.fsrBits) {k : Nat}
    (h : selectReg v a = .storage k) : isStorage v k = true := by
  have key : ∀ v ∈ [Variant.v54, .v57, .v59], ∀ a : Fin 256, a.val < 2 ^ v.fsrBits →
      (match selectReg v (BitVec.ofFin a) with | .storage k => isStorage v k | _ => true) = true := by decide
  have := key v (by cases v <;> simp) a.toFin ha
  change (match selectReg v a with | .storage k => isStorage v k | _ => true) = true at this
  rw [h] at this
  exact this

/-- A port is selected only where the variant has it (R35, R54). -/
theorem selectReg_hasPort (v : Variant) (a : Byte) {p : Port} (h : selectReg v a = .port p) : v.hasPort p = true := by
  unfold selectReg at h
  split at h
  · cases h
  · unfold commonReg at h
    split at h <;> first | (split_ifs at h <;> cases h <;> cases v <;> first | rfl | contradiction) | (cases h; cases v <;> rfl) | cases h

/-- The effective address is a data address of the variant (R56). -/
theorem State.ea_lt (s : State) (f : FileAddr) : (s.ea f).toNat < 2 ^ s.variant.fsrBits := by
  have hm := and_fsrMask_toNat s.variant s.fsr
  have hlt : s.fsr.toNat % 2 ^ s.variant.fsrBits < 2 ^ s.variant.fsrBits := Nat.mod_lt _ (Nat.two_pow_pos _)
  unfold State.ea
  split_ifs with h
  · rw [hm]; exact hlt
  · have hf := f.isLt
    have e : ((s.fsr &&& s.variant.fsrMask).extractLsb' 5 3 ++ f : BitVec 8).toNat
        = 32 * ((s.fsr &&& s.variant.fsrMask).toNat / 32 % 8) + f.toNat := by
      rw [BitVec.toNat_append, BitVec.extractLsb'_toNat, Nat.shiftLeft_eq, ← Nat.mul_comm, Nat.shiftRight_eq_div_pow,
        ← Nat.two_pow_add_eq_or_of_lt hf]
    have e' := e
    rw [hm] at e'
    have : (s.fsr.toNat % 2 ^ s.variant.fsrBits) / 32 % 8 * 32 + f.toNat < 2 ^ s.variant.fsrBits := by
      cases hv : s.variant <;> rw [hv] at hlt <;> simp only [Variant.fsrBits] at hlt ⊢ <;> omega
    change ((s.fsr &&& s.variant.fsrMask).extractLsb' 5 3 ++ f : BitVec 8).toNat < _
    rw [e']; omega

/-- A file operand selects a storage byte only under that byte's own address (R38, R55). -/
theorem State.sel_isStorage (s : State) (f : FileAddr) {k : Nat} (h : s.sel f = .storage k) :
    isStorage s.variant k = true := selectReg_isStorage _ _ (s.ea_lt f) h

/-- A file operand selects a port only where the variant has it (R35). -/
theorem State.sel_hasPort (s : State) (f : FileAddr) {p : Port} (h : s.sel f = .port p) :
    s.variant.hasPort p = true := selectReg_hasPort _ _ h

/-! ### Instructions -/

/-- What an instruction can do: an instruction that reads or writes through the shared operations ends in one of the
first three ways, each other instruction in its own. -/
theorem exec_cases {i : Instr} {s t : State} (h : exec i s = .next t) :
    (∃ as n d f y u, t = ({ s with answers := as, draws := n } : State).commit d (s.sel f) y u)
      ∨ (∃ as n f y c, s.sel f ≠ .pcl
          ∧ t = (({ s with answers := as, draws := n } : State).writeReg (s.sel f) y false).advanceOrSkip c)
      ∨ (∃ as n y c, t = ({ s with answers := as, draws := n, w := y } : State).advanceOrSkip c)
      ∨ (i = .option ∧ t = ({ s with optionReg := s.w } : State).advance)
      ∨ (∃ p, i = trisInstr p ∧ s.variant.hasPort p = true
          ∧ t = ({ s with tris := s.tris.set p (s.w &&& p.mask) } : State).advance)
      ∨ (i = .nop ∧ t = s.advance)
      ∨ (i = .sleep ∧ t =
          ({ s with wdt := 0, pre := 0, status := statusToPd s.status true false, asleep := true } : State).advance)
      ∨ (i = .clrwdt ∧ t = ({ s with wdt := 0, pre := 0, status := statusToPd s.status true true } : State).advance)
      ∨ (∃ k, i = .goto k ∧ t = { s with pc := s.gotoTarget k })
      ∨ (∃ k, i = .call k ∧ s.sp < 2
          ∧ t = { s with stk1 := s.stk0, stk0 := s.pcPlus 1, sp := s.sp + 1, pc := s.lowTarget k })
      ∨ (∃ k, i = .retlw k ∧ 0 < s.sp
          ∧ t = { s with stk0 := s.stk1, sp := s.sp - 1, w := k, pc := s.stk0 }) := by
  have file : ∀ f d (g : Byte → Byte × FlagUpdate), s.fileOp f d g = t →
      ∃ as n d f y u, t = ({ s with answers := as, draws := n } : State).commit d (s.sel f) y u := by
    intro f d g e
    obtain ⟨as, n, hr⟩ := s.readReg_snd (s.sel f)
    refine ⟨as, n, d, f, (g (s.fileValue f)).1, (g (s.fileValue f)).2, ?_⟩
    rw [← e, ← hr]; rfl
  have lit : ∀ y u, s.commitW y u = t →
      ∃ as n d f y u, t = ({ s with answers := as, draws := n } : State).commit d (s.sel f) y u :=
    fun y u e => ⟨s.answers, s.draws, .w, 0, y, u, e.symm⟩
  have store : ∀ f y u, s.commitFile (s.sel f) y u = t →
      ∃ as n d f y u, t = ({ s with answers := as, draws := n } : State).commit d (s.sel f) y u :=
    fun f y u e => ⟨s.answers, s.draws, .f, f, y, u, e.symm⟩
  have count : ∀ f d (g : Byte → Byte), s.countSkip f d g = .next t →
      (∃ as n f y c, s.sel f ≠ .pcl
          ∧ t = (({ s with answers := as, draws := n } : State).writeReg (s.sel f) y false).advanceOrSkip c)
        ∨ (∃ as n y c, t = ({ s with answers := as, draws := n, w := y } : State).advanceOrSkip c) := by
    intro f d g e
    obtain ⟨as, n, hr⟩ := s.readReg_snd (s.sel f)
    unfold State.countSkip at e
    simp only [hr] at e
    split_ifs at e with hp
    cases d with
    | w => exact .inr ⟨as, n, _, _, (Host.Outcome.next.inj e).symm⟩
    | f => exact .inl ⟨as, n, f, _, _, fun h => hp ⟨rfl, h⟩, (Host.Outcome.next.inj e).symm⟩
  have test : ∀ f b want, s.testSkip f b want = t →
      ∃ as n y c, t = ({ s with answers := as, draws := n, w := y } : State).advanceOrSkip c := by
    intro f b want e
    obtain ⟨as, n, hr⟩ := s.readReg_snd (s.sel f)
    exact ⟨as, n, s.w, _, by rw [← e, State.testSkip]; simp only [hr]; rfl⟩
  have tris : ∀ p, s.loadTris p = .next t → s.variant.hasPort p = true
      ∧ t = ({ s with tris := s.tris.set p (s.w &&& p.mask) } : State).advance := by
    intro p e
    rcases s.loadTris_cases p with ⟨h1, h2⟩ | ⟨_, h2⟩
    · exact ⟨h1, (Host.Outcome.next.inj (h2.symm.trans e)).symm⟩
    · rw [h2] at e; cases e
  cases i with
  | nop => cases h; simp
  | option => cases h; simp
  | sleep => cases h; simp
  | clrwdt => cases h; simp
  | trisA => exact .inr (.inr (.inr (.inr (.inl ⟨.a, rfl, tris .a h⟩))))
  | trisB => exact .inr (.inr (.inr (.inr (.inl ⟨.b, rfl, tris .b h⟩))))
  | trisC => exact .inr (.inr (.inr (.inr (.inl ⟨.c, rfl, tris .c h⟩))))
  | trisD => exact .inr (.inr (.inr (.inr (.inl ⟨.d, rfl, tris .d h⟩))))
  | trisE => exact .inr (.inr (.inr (.inr (.inl ⟨.e, rfl, tris .e h⟩))))
  | movwf f => exact .inl (store f _ _ (Host.Outcome.next.inj h))
  | clrf f => exact .inl (store f _ _ (Host.Outcome.next.inj h))
  | clrw => exact .inl (lit _ _ (Host.Outcome.next.inj h))
  | movlw k => exact .inl (lit _ _ (Host.Outcome.next.inj h))
  | iorlw k => exact .inl (lit _ _ (Host.Outcome.next.inj h))
  | andlw k => exact .inl (lit _ _ (Host.Outcome.next.inj h))
  | xorlw k => exact .inl (lit _ _ (Host.Outcome.next.inj h))
  | decfsz f d => rcases count f d (fun x => x - 1) h with h | h <;> simp only [h, true_or, or_true]
  | incfsz f d => rcases count f d (fun x => x + 1) h with h | h <;> simp only [h, true_or, or_true]
  | btfsc f b => exact .inr (.inr (.inl (test f b _ (Host.Outcome.next.inj h))))
  | btfss f b => exact .inr (.inr (.inl (test f b _ (Host.Outcome.next.inj h))))
  | goto k => cases h; simp
  | call k =>
    change execCall k s = _ at h
    unfold execCall at h
    rcases s.push_cases (s.pcPlus 1) with ⟨_, e⟩ | ⟨hs, e⟩ <;> rw [e] at h <;> cases h
    simp [hs]
  | retlw k =>
    change execRetlw k s = _ at h
    unfold execRetlw at h
    rcases s.pop_cases with ⟨_, e⟩ | ⟨hs, e⟩ <;> rw [e] at h <;> cases h
    simp [hs]
  | _ => exact .inl (file _ _ _ (Host.Outcome.next.inj h))

/-! ### Steps -/

/-- What a step can do: take a reset, idle asleep, or run the decoded instruction. -/
theorem step_cases {s t : State} (h : step s = .next t) :
    (∃ c cs, s.resetCauses = c :: cs ∧ t = s.takeReset c cs)
      ∨ (s.resetCauses = [] ∧ s.asleep = true ∧ t = s.passBoundary)
      ∨ (s.resetCauses = [] ∧ s.asleep = false ∧ ∃ i, decode s.variant s.fetch = .ok i
          ∧ exec i s.passBoundary = .next t) := by
  unfold step at h
  split at h
  · rename_i c cs e
    exact .inl ⟨c, cs, e, (Host.Outcome.next.inj h).symm⟩
  · rename_i e
    right
    unfold coreStep at h
    have hf : s.passBoundary.fetch = s.fetch := by simp [State.fetch]
    rw [State.passBoundary_asleep, State.passBoundary_variant, hf] at h
    split_ifs at h with ha
    · exact .inl ⟨e, ha, (Host.Outcome.next.inj h).symm⟩
    · right
      refine ⟨e, by simpa using ha, ?_⟩
      split at h
      · exact ⟨_, by assumption, h⟩
      · cases h

/-- No reset at a boundary where nothing is asserted and the watchdog is off (R159, R165). -/
theorem State.resetCauses_of_quiet {s : State} (hl : s.resetLines.powerOn = false) (hm : s.resetLines.mclr = false)
    (hw : s.wdtEnabled = false) : s.resetCauses = [] := by
  simp [State.resetCauses, hl, hm, hw]

/-- STATUS after a reset event, bit by bit (R170, R172). -/
theorem statusAfterReset_bits (nTO nPD : Bool) (n : Nat) :
    (statusAfterReset nTO nPD n).extractLsb' 5 3 = 0
      ∧ (statusAfterReset nTO nPD n).getLsbD 4 = nTO ∧ (statusAfterReset nTO nPD n).getLsbD 3 = nPD := by
  have key : ∀ a b : Bool, ∀ k : Fin 8,
      ((0#3 ++ BitVec.ofBool a ++ BitVec.ofBool b ++ (BitVec.ofFin k : BitVec 3) : BitVec 8).extractLsb' 5 3 = 0
        ∧ (0#3 ++ BitVec.ofBool a ++ BitVec.ofBool b ++ (BitVec.ofFin k : BitVec 3) : BitVec 8).getLsbD 4 = a
        ∧ (0#3 ++ BitVec.ofBool a ++ BitVec.ofBool b ++ (BitVec.ofFin k : BitVec 3) : BitVec 8).getLsbD 3 = b) := by decide
  exact key nTO nPD (Config.resetFlags n).toFin

/-- The bits of STATUS that no cause of a reset decides (R154). -/
theorem statusAfterReset_other_bits (nTO nPD nTO' nPD' : Bool) (n i : Nat) (h4 : i ≠ 4) (h3 : i ≠ 3) :
    (statusAfterReset nTO nPD n).getLsbD i = (statusAfterReset nTO' nPD' n).getLsbD i := by
  have key : ∀ a b c d : Bool, ∀ k : Fin 8, ∀ i : Fin 8, i.val ≠ 4 → i.val ≠ 3 →
      ((0#3 ++ BitVec.ofBool a ++ BitVec.ofBool b ++ (BitVec.ofFin k : BitVec 3) : BitVec 8).getLsbD i.val
        = (0#3 ++ BitVec.ofBool c ++ BitVec.ofBool d ++ (BitVec.ofFin k : BitVec 3) : BitVec 8).getLsbD i.val) := by
    decide
  by_cases hi : i < 8
  · exact key nTO nPD nTO' nPD' (Config.resetFlags n).toFin ⟨i, hi⟩ h4 h3
  · rw [BitVec.getLsbD_of_ge _ _ (by omega), BitVec.getLsbD_of_ge _ _ (by omega)]

/-- The cause that is picked is one of the causes (R154). -/
theorem pickCause_mem (c : ResetCause) (cs : List ResetCause) (n : Nat) : pickCause c cs n ∈ c :: cs := by
  cases cs with
  | nil => exact List.mem_singleton.2 rfl
  | cons d ds =>
    have h : n % ((d :: ds).length + 1) < (c :: d :: ds).length := Nat.mod_lt _ (Nat.succ_pos _)
    change (c :: d :: ds).getD (n % ((d :: ds).length + 1)) c ∈ c :: d :: ds
    rw [List.getD_eq_getElem _ _ h]
    exact List.getElem_mem h

/-- STATUS after SLEEP or CLRWDT, bit by bit (R131, R132). -/
theorem statusToPd_getLsbD (st : Byte) (nTO nPD : Bool) (j : Nat) :
    (statusToPd st nTO nPD).getLsbD j = if j = 3 then nPD else if j = 4 then nTO else st.getLsbD j := by
  unfold statusToPd bitTO bitPD
  rw [putBit_getLsbD _ _ _ (by omega), putBit_getLsbD _ _ _ (by omega)]

end Sys2Proof.Machine
end

