-- ==== Sys2Proof/Tests/Slice0.lean ====
section
/-! SUPPORT. Tests. Words and expected values are those of spec/95_test_vectors.md (section named at each group) or are
worked out by hand from the rule a test names; none is the model's own answer. The last part shows, for every obligation
with hypotheses, a concrete state and operands that meet them. -/

namespace Sys2Proof.Tests

open Sys2Proof Sys2Proof.Machine

/-! ### Well-formedness (R78, R79, R126): the one check, and the terms it refuses -/

theorem test_trisC_ill_formed_on_v54 : Instr.wellFormed .v54 .trisC = false := by decide
theorem test_trisD_ill_formed_on_v57 : Instr.wellFormed .v57 .trisD = false := by decide
theorem test_trisE_ill_formed_on_v57 : Instr.wellFormed .v57 .trisE = false := by decide
theorem test_trisE_well_formed_on_v59 : Instr.wellFormed .v59 .trisE = true := by decide

/-! ### Decoding: one word for every constructor, written out bit by bit from the Code Tree (L1.2, L1.6, R74) -/

theorem test_decode_nop : decodeTableWord 12 0b000000000000 = some (.nop) := by decide
theorem test_decode_option : decodeTableWord 12 0b000000000010 = some (.option) := by decide
theorem test_decode_sleep : decodeTableWord 12 0b000000000011 = some (.sleep) := by decide
theorem test_decode_clrwdt : decodeTableWord 12 0b000000000100 = some (.clrwdt) := by decide
theorem test_decode_trisA : decodeTableWord 12 0b000000000101 = some (.trisA) := by decide
theorem test_decode_trisB : decodeTableWord 12 0b000000000110 = some (.trisB) := by decide
theorem test_decode_trisC : decodeTableWord 12 0b000000000111 = some (.trisC) := by decide
theorem test_decode_trisD : decodeTableWord 12 0b000000001000 = some (.trisD) := by decide
theorem test_decode_trisE : decodeTableWord 12 0b000000001001 = some (.trisE) := by decide
theorem test_decode_movwf : decodeTableWord 12 0b000000110000 = some (.movwf 0x10) := by decide
theorem test_decode_clrw : decodeTableWord 12 0b000001000000 = some (.clrw) := by decide
theorem test_decode_clrf : decodeTableWord 12 0b000001110001 = some (.clrf 0x11) := by decide
theorem test_decode_subwf : decodeTableWord 12 0b000010010001 = some (.subwf 0x11 .w) := by decide
theorem test_decode_decf : decodeTableWord 12 0b000011110000 = some (.decf 0x10 .f) := by decide
theorem test_decode_iorwf : decodeTableWord 12 0b000100010000 = some (.iorwf 0x10 .w) := by decide
theorem test_decode_andwf : decodeTableWord 12 0b000101110000 = some (.andwf 0x10 .f) := by decide
theorem test_decode_xorwf : decodeTableWord 12 0b000110110000 = some (.xorwf 0x10 .f) := by decide
theorem test_decode_addwf : decodeTableWord 12 0b000111110001 = some (.addwf 0x11 .f) := by decide
theorem test_decode_movf : decodeTableWord 12 0b001000000100 = some (.movf 4 .w) := by decide
theorem test_decode_comf : decodeTableWord 12 0b001001110000 = some (.comf 0x10 .f) := by decide
theorem test_decode_incf : decodeTableWord 12 0b001010100100 = some (.incf 4 .f) := by decide
theorem test_decode_decfsz : decodeTableWord 12 0b001011110000 = some (.decfsz 0x10 .f) := by decide
theorem test_decode_rrf : decodeTableWord 12 0b001100110000 = some (.rrf 0x10 .f) := by decide
theorem test_decode_rlf : decodeTableWord 12 0b001101110000 = some (.rlf 0x10 .f) := by decide
theorem test_decode_swapf : decodeTableWord 12 0b001110010000 = some (.swapf 0x10 .w) := by decide
theorem test_decode_incfsz : decodeTableWord 12 0b001111110000 = some (.incfsz 0x10 .f) := by decide
theorem test_decode_bcf : decodeTableWord 12 0b010010100011 = some (.bcf 3 5) := by decide
theorem test_decode_bsf : decodeTableWord 12 0b010110000110 = some (.bsf 6 4) := by decide
theorem test_decode_btfsc : decodeTableWord 12 0b011010000100 = some (.btfsc 4 4) := by decide
theorem test_decode_btfss : decodeTableWord 12 0b011111110000 = some (.btfss 0x10 7) := by decide
theorem test_decode_retlw : decodeTableWord 12 0b100001011011 = some (.retlw 0x5B) := by decide
theorem test_decode_call : decodeTableWord 12 0b100100010000 = some (.call 0x10) := by decide
theorem test_decode_goto : decodeTableWord 12 0b101110100101 = some (.goto 0x1A5) := by decide
theorem test_decode_movlw : decodeTableWord 12 0b110000000101 = some (.movlw 0x05) := by decide
theorem test_decode_iorlw : decodeTableWord 12 0b110100110101 = some (.iorlw 0x35) := by decide
theorem test_decode_andlw : decodeTableWord 12 0b111001011111 = some (.andlw 0x5F) := by decide
theorem test_decode_xorlw : decodeTableWord 12 0b111110101111 = some (.xorlw 0xAF) := by decide

/-- The word the spec assigns to nothing on any variant (L1.6). -/
theorem test_decode_unassigned :
    decodeTableWord 12 0x001 = none ∧ decodeTableWord 12 0x00A = none ∧ decodeTableWord 12 0x01F = none
      ∧ decodeTableWord 12 0x041 = none ∧ decodeTableWord 12 0x05F = none := by decide

/-! ### One step on a small state (L2): variant V57, the word at `pc = 0x010`, `F` the byte at file address 0x10 -/

/-- The start state of the L2 tables: W, F and STATUS before. -/
def cpu (w f st : Byte) : State :=
  { State.resetOf .v57 with w := w, status := st, pc := 0x010, ram := Memory.write [] 0x10 f }

/-- One step at a word. -/
def run (x : InstrWord) (s : State) : Host.Outcome State Fault Refusal := step (s.placeWord x)

/-- A check of the next state, where there is one. -/
def holds (o : Host.Outcome State Fault Refusal) (p : State → Bool) : Bool :=
  match o with
  | .next t => p t
  | _ => false

/-- The outcome is this fault. -/
def faults (o : Host.Outcome State Fault Refusal) (e : Fault) : Bool :=
  match o with
  | .fault e' => decide (e' = e)
  | _ => false

/-- W, F, STATUS and `pc` after. -/
def leaves (w f st : Byte) (pc : ProgAddr) (t : State) : Bool :=
  decide (t.w = w) && decide (t.ram.read 0x10 = f) && decide (t.status = st) && decide (t.pc = pc)

theorem test_subwf_nibble_borrow_only :
    holds (run 0x090 (cpu 0x01 0x10 0x18)) (leaves 0x0F 0x10 0x19 0x011) = true := by decide
theorem test_subwf_to_file :
    holds (run 0x0B0 (cpu 0x03 0x05 0x18)) (leaves 0x03 0x02 0x1B 0x011) = true := by decide
theorem test_addwf_wraps_to_zero :
    holds (run 0x1D0 (cpu 0x01 0xFF 0x18)) (leaves 0x00 0xFF 0x1F 0x011) = true := by decide
theorem test_addwf_ignores_old_carry :
    holds (run 0x1D0 (cpu 0x01 0x01 0x19)) (leaves 0x02 0x01 0x18 0x011) = true := by decide
theorem test_iorwf :
    holds (run 0x110 (cpu 0x91 0x13 0x18)) (leaves 0x93 0x13 0x18 0x011) = true := by decide
theorem test_andwf_zero :
    holds (run 0x170 (cpu 0x0F 0xF0 0x18)) (leaves 0x0F 0x00 0x1C 0x011) = true := by decide
theorem test_xorwf_keeps_carries :
    holds (run 0x190 (cpu 0x5A 0x5A 0x1B)) (leaves 0x00 0x5A 0x1F 0x011) = true := by decide
theorem test_iorlw_clears_stale_z :
    holds (run 0xD00 (cpu 0x07 0x00 0x1C)) (leaves 0x07 0x00 0x18 0x011) = true := by decide
theorem test_andlw :
    holds (run 0xE5F (cpu 0xA3 0x00 0x18)) (leaves 0x03 0x00 0x18 0x011) = true := by decide
theorem test_xorlw_all_ones_word :
    holds (run 0xFFF (cpu 0x0F 0x00 0x18)) (leaves 0xF0 0x00 0x18 0x011) = true := by decide
theorem test_decf_wraps_carry_kept :
    holds (run 0x0F0 (cpu 0x00 0x00 0x19)) (leaves 0x00 0xFF 0x19 0x011) = true := by decide
theorem test_decf_to_w :
    holds (run 0x0D0 (cpu 0xEE 0x10 0x18)) (leaves 0x0F 0x10 0x18 0x011) = true := by decide
theorem test_incf_wraps :
    holds (run 0x2B0 (cpu 0x00 0xFF 0x18)) (leaves 0x00 0x00 0x1C 0x011) = true := by decide
theorem test_rrf_carry_in_and_out :
    holds (run 0x330 (cpu 0x00 0x01 0x19)) (leaves 0x00 0x80 0x19 0x011) = true := by decide
theorem test_rrf_zero_result_keeps_z :
    holds (run 0x330 (cpu 0x00 0x01 0x18)) (leaves 0x00 0x00 0x19 0x011) = true := by decide
theorem test_rlf_to_w :
    holds (run 0x350 (cpu 0x11 0x40 0x19)) (leaves 0x81 0x40 0x18 0x011) = true := by decide
theorem test_rlf_zero_result_keeps_z :
    holds (run 0x370 (cpu 0x00 0x80 0x18)) (leaves 0x00 0x00 0x19 0x011) = true := by decide
theorem test_swapf :
    holds (run 0x390 (cpu 0x99 0xA5 0x18)) (leaves 0x5A 0xA5 0x18 0x011) = true := by decide
theorem test_bcf :
    holds (run 0x4F0 (cpu 0x00 0xC7 0x18)) (leaves 0x00 0x47 0x18 0x011) = true := by decide
theorem test_bsf :
    holds (run 0x5F0 (cpu 0x00 0x0A 0x18)) (leaves 0x00 0x8A 0x18 0x011) = true := by decide
theorem test_clrw_keeps_carries :
    holds (run 0x040 (cpu 0x00 0x00 0x1F)) (leaves 0x00 0x00 0x1F 0x011) = true := by decide
theorem test_clrf_keeps_w :
    holds (run 0x070 (cpu 0x77 0x5A 0x18)) (leaves 0x77 0x00 0x1C 0x011) = true := by decide
theorem test_comf_to_w :
    holds (run 0x250 (cpu 0x00 0x13 0x18)) (leaves 0xEC 0x13 0x18 0x011) = true := by decide
theorem test_comf_zero :
    holds (run 0x270 (cpu 0x00 0xFF 0x18)) (leaves 0x00 0x00 0x1C 0x011) = true := by decide
theorem test_movwf_zero_keeps_z :
    holds (run 0x030 (cpu 0x00 0x12 0x18)) (leaves 0x00 0x00 0x18 0x011) = true := by decide
theorem test_movf_clears_z :
    holds (run 0x210 (cpu 0x77 0x80 0x1C)) (leaves 0x80 0x80 0x18 0x011) = true := by decide
theorem test_movf_tests_in_place :
    holds (run 0x230 (cpu 0x77 0x00 0x18)) (leaves 0x77 0x00 0x1C 0x011) = true := by decide
theorem test_movlw_zero_keeps_z :
    holds (run 0xC00 (cpu 0x33 0x00 0x18)) (leaves 0x00 0x00 0x18 0x011) = true := by decide
theorem test_decfsz_skips :
    holds (run 0x2F0 (cpu 0x00 0x01 0x1B)) (leaves 0x00 0x00 0x1B 0x012) = true := by decide
theorem test_decfsz_wraps_no_skip :
    holds (run 0x2F0 (cpu 0x00 0x00 0x18)) (leaves 0x00 0xFF 0x18 0x011) = true := by decide
theorem test_incfsz_to_w_skips :
    holds (run 0x3D0 (cpu 0x55 0xFF 0x18)) (leaves 0x00 0xFF 0x18 0x012) = true := by decide
theorem test_incfsz_no_skip :
    holds (run 0x3F0 (cpu 0x00 0x00 0x18)) (leaves 0x00 0x01 0x18 0x011) = true := by decide
theorem test_btfsc_skips :
    holds (run 0x670 (cpu 0x00 0xF7 0x18)) (leaves 0x00 0xF7 0x18 0x012) = true := by decide
theorem test_btfsc_no_skip :
    holds (run 0x670 (cpu 0x00 0x08 0x18)) (leaves 0x00 0x08 0x18 0x011) = true := by decide
theorem test_btfss_skips_on_bit_one :
    holds (run 0x730 (cpu 0x00 0x02 0x18)) (leaves 0x00 0x02 0x18 0x012) = true := by decide
theorem test_btfss_no_skip :
    holds (run 0x7F0 (cpu 0x00 0x7F 0x18)) (leaves 0x00 0x7F 0x18 0x011) = true := by decide
theorem test_nop :
    holds (run 0x000 (cpu 0x12 0x00 0x1F)) (leaves 0x12 0x00 0x1F 0x011) = true := by decide
theorem test_swapf_status :
    holds (run 0x3A3 (cpu 0x00 0x00 0x1A)) (leaves 0x00 0x00 0xB9 0x011) = true := by decide
theorem test_addwf_status_with_flags :
    holds (run 0x1E3 (cpu 0xE8 0x00 0x18)) (leaves 0xE8 0x00 0x1F 0x011) = true := by decide

/-! ### Registers outside the file, system instructions and jumps (L2.7, L2.8) -/

theorem test_option : holds (run 0x002 (cpu 0xC7 0 0x18)) (fun t => decide (t.optionReg = 0xC7)) = true := by decide
theorem test_trisA : holds (run 0x005 (cpu 0xF5 0 0x18)) (fun t => decide (t.tris.get .a = 0x05)) = true := by decide
theorem test_trisB : holds (run 0x006 (cpu 0x0F 0 0x18)) (fun t => decide (t.tris.get .b = 0x0F)) = true := by decide
theorem test_trisC : holds (run 0x007 (cpu 0x00 0 0x18)) (fun t => decide (t.tris.get .c = 0x00)) = true := by decide
theorem test_trisC_on_v54 :
    faults (run 0x007 { cpu 0x00 0 0x18 with variant := .v54 }) (.illegalEncoding 0x007) = true := by decide
theorem test_trisD :
    holds (run 0x008 { cpu 0xAA 0 0x18 with variant := .v59 }) (fun t => decide (t.tris.get .d = 0xAA)) = true := by decide
theorem test_trisE :
    holds (run 0x009 { cpu 0x5A 0 0x18 with variant := .v59 }) (fun t => decide (t.tris.get .e = 0x50)) = true := by decide
theorem test_sleep :
    holds (run 0x003 { cpu 0 0 0xFF with wdt := 9, pre := 3 })
      (fun t => decide (t.status = 0xF7 ∧ t.asleep = true ∧ t.wdt = 0 ∧ t.pre = 0)) = true := by decide
theorem test_clrwdt :
    holds (run 0x004 { cpu 0 0 0xE7 with wdt := 9, pre := 3 })
      (fun t => decide (t.status = 0xFF ∧ t.asleep = false ∧ t.wdt = 0 ∧ t.pre = 0)) = true := by decide
theorem test_goto_page : holds (run 0xB23 (cpu 0 0 0xF8)) (fun t => decide (t.pc = 0x723)) = true := by decide
theorem test_goto_on_v54 :
    holds (run 0xB23 { cpu 0 0 0x78 with variant := .v54 }) (fun t => decide (t.pc = 0x123)) = true := by decide
theorem test_call :
    holds (run 0x945 { cpu 0 0 0x58 with pc := 0x1FF, stk0 := 0x123, sp := 1 })
      (fun t => decide (t.pc = 0x445 ∧ t.stk0 = 0x200 ∧ t.stk1 = 0x123 ∧ t.sp = 2)) = true := by decide
theorem test_call_overflow : faults (run 0x945 { cpu 0 0 0x18 with sp := 2 }) .stackOverflow = true := by decide
theorem test_retlw :
    holds (run 0x800 { cpu 0x33 0 0x78 with stk0 := 0x7FF, stk1 := 0x456, sp := 2 })
      (fun t => decide (t.w = 0 ∧ t.pc = 0x7FF ∧ t.stk0 = 0x456 ∧ t.stk1 = 0x456 ∧ t.sp = 1 ∧ t.status = 0x78)) = true := by
  decide
theorem test_retlw_underflow : faults (run 0x85A (cpu 0 0 0x18)) .stackUnderflow = true := by decide

/-! ### Special registers as operands (L2.9 to L2.11) -/

theorem test_decfsz_pcl :
    faults (run 0x2E2 (cpu 0 0 0x18)) (.refusedForm "skip with PCL destination") = true := by decide
theorem test_skip_wraps_at_the_last_address :
    holds (run 0x670 { cpu 0 0 0x18 with pc := 0x7FF }) (fun t => decide (t.pc = 0x001)) = true := by decide
theorem test_addwf_pcl :
    holds (run 0x1E2 { cpu 0xFF 0 0x18 with pc := 0x1FE }) (fun t => decide (t.pc = 0x0FE ∧ t.status = 0x1B)) = true := by
  decide
theorem test_movf_pcl :
    holds (run 0x202 { cpu 0 0 0x18 with pc := 0x345 }) (fun t => decide (t.w = 0x46 ∧ t.pc = 0x346)) = true := by decide
theorem test_movwf_indf_pcl :
    holds (run 0x020 { cpu 0x40 0 0x18 with fsr := 0x02, pc := 0x300 }) (fun t => decide (t.pc = 0x040)) = true := by decide
theorem test_incf_fsr :
    holds (run 0x2A4 { cpu 0 0 0x18 with fsr := 0x3F }) (fun t => decide (t.fsr = 0x40 ∧ t.status = 0x18)) = true := by
  decide
/-- R55, R56: `MOVF 0x10,0` with FSR = 0x20 selects bank 1, data address 0x30. -/
theorem test_bank_one :
    holds (run 0x210 { cpu 0 0xA0 0x18 with fsr := 0x20, ram := Memory.write (Memory.write [] 0x10 0xA0) 0x30 0xA1 })
      (fun t => decide (t.w = 0xA1)) = true := by decide
/-- R18, R36: a read of port A takes the environment's answer, its implemented bits only. -/
theorem test_port_read :
    holds (run 0x205 { cpu 0 0 0x18 with answers := [0xFA, 0x11] })
      (fun t => decide (t.w = 0x0A ∧ t.answers = [0x11])) = true := by decide

/-! ### Reset (L1.5, R46, R170, R173), sleep and memory -/

theorem test_reset :
    State.reset.pc = 0x7FF ∧ State.reset.status = 0x1F ∧ State.reset.optionReg = 0xFF
      ∧ State.reset.tris = ⟨0x0F, 0xFF, 0xFF, 0xFF, 0xF0⟩ ∧ State.reset.sp = 0 ∧ State.reset.asleep = false := by decide
theorem test_reset_pc_on_v54 : (State.resetOf .v54).pc = 0x1FF := by decide
theorem test_power_on_reset_restarts :
    holds (step { cpu 0 0 0xF8 with asleep := true, resetLines := ⟨true, false, false⟩ })
      (fun t => decide (t.pc = 0x7FF ∧ t.sp = 0 ∧ t.asleep = false ∧ t.optionReg = 0xFF)) = true := by decide
theorem test_asleep_idles :
    holds (step { cpu 0x12 0 0x18 with asleep := true }) (fun t => decide (t.pc = 0x010 ∧ t.asleep = true)) = true := by
  decide
theorem test_reset_memory_canonical : State.reset.ram.wf = true ∧ State.reset.prog.wf = true := by decide
theorem test_memory_write_removes_entry :
    Memory.write (Memory.write (Memory.write [] 0x12 7) 0x10 5) 0x12 0 = [(0x10, 5)] := by decide
set_option maxRecDepth 8000 in
/-- R38: the numbers of storage bytes of V54 (25), V57 (72) and V59 (134). -/
theorem test_storage_counts :
    (storageAddrs .v54).length = 25 ∧ (storageAddrs .v57).length = 72 ∧ (storageAddrs .v59).length = 134 := by decide

/-! ### The hypotheses of the obligations are met -/

theorem test_meets_DecodeOfEncodeIsTheInstruction :
    Instr.wellFormed .v59 .trisE = true ∧ Instr.wellFormed .v54 .trisB = true
      ∧ Instr.wellFormed .v54 (.goto 0x1FF) = true := by decide

theorem test_meets_EncodeOfDecodeIsTheWord :
    decode .v57 0xFFF = .ok (.xorlw 0xFF) ∧ decode .v57 0x020 = .ok (.movwf 0) := ⟨rfl, rfl⟩

/-- The first and last word of each range of R78, and the assigned words beside them. -/
theorem test_edges_UnassignedWordsAreExactlyTheListedOnes :
    decode .v59 0x000 = .ok .nop ∧ decode .v59 0x001 = .error .unassigned ∧ decode .v59 0x002 = .ok .option
      ∧ decode .v59 0x009 = .ok .trisE ∧ decode .v59 0x00A = .error .unassigned
      ∧ decode .v59 0x01F = .error .unassigned ∧ decode .v59 0x020 = .ok (.movwf 0)
      ∧ decode .v59 0x040 = .ok .clrw ∧ decode .v59 0x041 = .error .unassigned
      ∧ decode .v59 0x05F = .error .unassigned ∧ decode .v59 0x060 = .ok (.clrf 0)
      ∧ decode .v54 0x007 = .error (.absentPort .c) ∧ decode .v57 0x007 = .ok .trisC
      ∧ decode .v57 0x008 = .error (.absentPort .d) ∧ decode .v57 0x009 = .error (.absentPort .e) :=
  ⟨rfl, rfl, rfl, rfl, rfl, rfl, rfl, rfl, rfl, rfl, rfl, rfl, rfl, rfl, rfl⟩

theorem test_meets_StepRunsTheDecodedInstruction :
    let s := (cpu 1 2 0x18).placeWord 0x0B0
    s.resetLines = .idle ∧ s.wdtEnabled = false ∧ s.asleep = false
      ∧ decode s.variant (s.prog.read s.pc.toNat) = .ok (.subwf 0x10 .f) := ⟨rfl, rfl, rfl, rfl⟩

theorem test_meets_StepWithEnabledWatchdogRunsOrResets :
    let s := { (cpu 1 2 0x18).placeWord 0x0B0 with wdtEnabled := true }
    s.resetLines = .idle ∧ s.wdtEnabled = true ∧ s.asleep = false
      ∧ decode s.variant (s.prog.read s.pc.toNat) = .ok (.subwf 0x10 .f) := ⟨rfl, rfl, rfl, rfl⟩

theorem test_meets_PlacedWordIsTheNextInstruction :
    let s := { cpu 1 2 0x18 with asleep := true }
    s.wdtEnabled = false ∧ Instr.wellFormed s.variant .trisC = true := ⟨rfl, rfl⟩

theorem test_meets_UnassignedWordFaultsWithTheWord :
    let s := (cpu 1 2 0x18).placeWord 0x05F
    let e := { s with wdtEnabled := true }
    s.resetLines = .idle ∧ s.wdtEnabled = false ∧ e.wdtEnabled = true ∧ s.asleep = false ∧ e.asleep = false
      ∧ e.resetLines = .idle ∧ (∀ i, decode s.variant (s.prog.read s.pc.toNat) ≠ .ok i)
      ∧ ∀ i, decode e.variant (e.prog.read e.pc.toNat) ≠ .ok i :=
  ⟨rfl, rfl, rfl, rfl, rfl, rfl, (fun _ h => nomatch (show Except.error DecodeError.unassigned = _ from h)),
    (fun _ h => nomatch (show Except.error DecodeError.unassigned = _ from h))⟩

theorem test_meets_AsleepIsSetBySleepClearedByResetAndIdle :
    let s := { cpu 1 2 0x18 with asleep := true }
    s.asleep = true ∧ s.resetCauses = [] ∧ s.wdtEnabled = false := ⟨rfl, rfl, rfl⟩

theorem test_meets_AssertedResetHappensAtTheBoundary :
    let s := { cpu 1 2 0x18 with resetLines := ⟨true, false, false⟩ }
    let m := { cpu 1 2 0x18 with resetLines := ⟨false, true, false⟩, asleep := true }
    let w := { cpu 1 2 0x18 with resetLines := ⟨false, false, true⟩, wdtEnabled := true }
    s.wdtEnabled = false ∧ s.resetLines = ⟨true, false, false⟩ ∧ m.wdtEnabled = false
      ∧ m.resetLines = ⟨false, true, false⟩ ∧ w.wdtEnabled = true ∧ w.resetLines = ⟨false, false, true⟩ := by decide

/-- Several causes at once (R154): power-on and /MCLR asleep, and all three lines with the watchdog enabled. -/
theorem test_several_causes :
    let s := { cpu 1 2 0x18 with resetLines := ⟨true, true, true⟩, asleep := true }
    s.resetCauses = [.powerOn, .mclrSleep]
      ∧ { s with wdtEnabled := true }.resetCauses = [.powerOn, .mclrSleep, .wdtSleep] := ⟨rfl, rfl⟩

theorem test_meets_DisabledWatchdogNeverResets :
    let s := { cpu 1 2 0x18 with resetLines := ⟨false, false, true⟩ }
    s.wdtEnabled = false ∧ s.resetLines.powerOn = false ∧ s.resetLines.mclr = false := ⟨rfl, rfl, rfl⟩

/-- A read for each clause: PCL, which uses up nothing, and a port with and without a given answer. -/
theorem test_meets_ReadsHaveNoEffectOnTheMachine :
    FileReg.pcl ≠ .tmr0 ∧ (∀ p, FileReg.pcl ≠ .port p)
      ∧ (({ cpu 0 0 0x18 with answers := [7, 8] } : State).readReg (.port .a)).2.answers = [8]
      ∧ ((cpu 0 0 0x18).readReg (.port .a)).2.draws = 1 := ⟨nofun, nofun, rfl, rfl⟩

/-- A state of the invariant that is no reset state, with a full stack and both memories filled, and its next state. -/
theorem test_meets_EveryStepKeepsTheInvariant :
    let s := { (cpu 1 2 0x78).placeWord 0x0B0 with fsr := 0x7F, stk0 := 0x7FF, stk1 := 0x123, sp := 2 }
    StateInv s ∧ ∃ t, step s = .next t := by
  refine ⟨⟨by decide, by decide, by decide, by decide, by decide, fun p => ?_, fun p => ?_, by decide, ?_, by decide, ?_⟩,
    _, rfl⟩
  · cases p <;> decide
  · cases p <;> decide
  · intro c h
    rw [List.mem_singleton.1 h]; decide
  · intro c h
    rw [List.mem_singleton.1 h]; decide

theorem test_meets_NoStepChangesProgramMemory : ∃ t, step ((cpu 1 2 0x18).placeWord 0x0B0) = .next t := ⟨_, rfl⟩

/-- The hypotheses of OnlySleepAndClrwdtChangeToAndPd, OnlyCallAndRetlwTouchTheStack and
EachRegisterOutsideTheFileHasItsOwnWriter. -/
theorem test_meets_frames :
    (∃ t, exec (.movwf 3) (cpu 1 2 0x18) = .next t) ∧ Instr.movwf 3 ≠ .sleep ∧ Instr.movwf 3 ≠ .clrwdt
      ∧ (∀ k, Instr.movwf 3 ≠ .call k) ∧ (∀ k, Instr.movwf 3 ≠ .retlw k) ∧ Instr.movwf 3 ≠ .option
      ∧ (∀ p, Instr.movwf 3 ≠ trisInstr p) :=
  ⟨⟨_, rfl⟩, nofun, nofun, nofun, nofun, nofun, fun p => by cases p <;> nofun⟩

theorem test_meets_WriteOnlyStateNeverReachesTheProgram :
    let s := (cpu 1 2 0x18).placeWord 0x003
    let s' := { s with optionReg := 7, lat := ⟨1, 2, 3, 0, 0⟩, tmr0 := 9, wdt := 4, pre := 5 }
    hideOutputs s = hideOutputs s' ∧ s ≠ s' := by decide

theorem test_meets_CallAndComputedJumpTargetsHaveBit8Clear :
    (∃ t, exec (.call 0xFF) { cpu 0 0 0x78 with pc := 0x7FF } = .next t)
      ∧ (cpu 0 0 0x18).sel 2 = .pcl ∧ { cpu 0 0 0x18 with fsr := 0x22 }.sel 0 = .pcl
      ∧ (∃ t, exec (.bsf 2 7) (cpu 0 0 0x18) = .next t) ∧ (∃ t, exec (.movwf 2) (cpu 0 0 0x18) = .next t) :=
  ⟨⟨_, rfl⟩, rfl, rfl, ⟨_, rfl⟩, ⟨_, rfl⟩⟩

/-- One operand for each clause at the ends of its range: INDF to FSR, the first and last port, the bytes beside the ports,
the first and last banked byte, directly and through FSR. It serves MovfLoadsWhatTheSelectedRegisterReads,
StorageReturnsWhatWasStored and BsfOnPortReplacesTheLatchByThePins too. -/
theorem test_meets_FileOperandSelection :
    (cpu 0 0 0x18).sel 0 = .indf ∧ (cpu 0 0 0x18).sel 1 = .tmr0 ∧ (cpu 0 0 0x18).sel 2 = .pcl
      ∧ (cpu 0 0 0x18).sel 3 = .status ∧ { cpu 0 0 0x18 with fsr := 0x64 }.sel 0 = .fsr
      ∧ (cpu 0 0 0x18).sel 5 = .port .a ∧ (cpu 0 0 0x18).sel 7 = .port .c ∧ (cpu 0 0 0x18).sel 8 = .storage 0x08
      ∧ { cpu 0 0 0x18 with fsr := 0x6F }.sel 0x0F = .storage 0x0F
      ∧ (cpu 0 0 0x18).sel 0x10 = .storage 0x10 ∧ { cpu 0 0 0x18 with fsr := 0x60 }.sel 0x1F = .storage 0x7F
      ∧ { cpu 0 0 0x18 with fsr := 0x70 }.sel 0 = .storage 0x70
      ∧ { cpu 0 0 0x18 with variant := .v59, fsr := 0xFF }.sel 0 = .storage 0xFF
      ∧ { cpu 0 0 0x18 with variant := .v59 }.sel 9 = .port .e
      ∧ { cpu 0 0 0x18 with variant := .v54, fsr := 0x1F }.sel 7 = .storage 7 := by decide

theorem test_meets_BanksDoNotOverlap :
    (∃ t, exec (.movwf 0x10) (cpu 1 2 0x18) = .next t)
      ∧ (cpu 1 2 0x18).fsr.toNat % 2 ^ (cpu 1 2 0x18).variant.fsrBits / 32
        ≠ (0x20 : Byte).toNat % 2 ^ (cpu 1 2 0x18).variant.fsrBits / 32
      ∧ (0x10 : FileAddr) ≠ 0x1F := ⟨⟨_, rfl⟩, by decide, by decide⟩

theorem test_meets_IndfThroughItselfReadsZeroAndStoresNothing :
    (cpu 1 2 0x18).fsr.toNat % 32 = 0 ∧ { cpu 1 2 0x18 with fsr := 0x60 }.fsr.toNat % 32 = 0 := by decide

/-- The states of nine rotations of the byte at 0x10. -/
def rotated (n : Nat) : State :=
  (fun s : State => s.fileOp 0x10 .f (fun x => rotateRight x s.carry))^[n] (cpu 1 0xE6 0x18)

theorem test_meets_NineRightRotationsRestoreByteAndCarry :
    (cpu 1 0xE6 0x18).sel 0x10 = .storage 0x10 ∧ rotated 0 = cpu 1 0xE6 0x18
      ∧ ∀ n < 9, exec (.rrf 0x10 .f) (rotated n) = .next (rotated (n + 1)) :=
  ⟨rfl, rfl, fun n _ => by rw [rotated, rotated, Function.iterate_succ_apply']; rfl⟩

theorem test_meets_TrisLoadsThePortsRegister :
    Variant.hasPort .v57 .c = true ∧ Variant.hasPort .v57 .d = false ∧ Variant.hasPort .v59 .e = true
      ∧ Variant.hasPort .v54 .b = true ∧ Variant.hasPort .v54 .c = false := by decide

theorem test_meets_CallPushesAndJumps_and_RetlwPopsAndLoadsW :
    (cpu 1 2 0x18).sp < 2 ∧ { cpu 1 2 0x18 with sp := 1 }.sp < 2 ∧ 2 ≤ { cpu 1 2 0x18 with sp := 2 }.sp
      ∧ 0 < { cpu 1 2 0x18 with sp := 1 }.sp ∧ (cpu 1 2 0x18).sp = 0 := by decide

/-- A subroutine that changes the page bits between its CALL and its RETLW. -/
theorem test_meets_RetlwReturnsBehindTheCall :
    ∃ t, exec (.call 0x45) (cpu 1 2 0x18) = .next t ∧ SameStack t { t with status := 0x78, w := 9 } :=
  ⟨_, rfl, rfl, rfl, rfl⟩

theorem test_meets_CountAndSkip :
    destReg .f ((cpu 1 2 0x18).sel 0x10) ≠ some .pcl ∧ destReg .w ((cpu 1 2 0x18).sel 2) ≠ some .pcl
      ∧ destReg .f ((cpu 1 2 0x18).sel 2) = some .pcl := by decide

end Sys2Proof.Tests
end

/-! Where an instruction stops (spec/00_scope.md R17, spec/60_exceptions.md R150): the outcomes of each instruction that
can stop, and that every other one completes. -/

namespace Sys2Proof.Machine

/-! ### The instructions that can stop -/

/-- CALL: the fault on a full stack, otherwise the push and the jump (R41, R134). -/
theorem exec_call_cases (k : Byte) (s : State) :
    (2 ≤ s.sp ∧ exec (.call k) s = .fault .stackOverflow)
      ∨ (s.sp < 2 ∧ exec (.call k) s
          = .next { s with stk1 := s.stk0, stk0 := s.pcPlus 1, sp := s.sp + 1, pc := s.lowTarget k }) := by
  change (_ ∧ execCall k s = _) ∨ (_ ∧ execCall k s = _)
  unfold execCall
  rcases s.push_cases (s.pcPlus 1) with ⟨full, e⟩ | ⟨room, e⟩ <;> rw [e]
  · exact .inl ⟨full, rfl⟩
  · exact .inr ⟨room, rfl⟩

/-- RETLW: the fault on an empty stack, otherwise the literal in W and the return (R42, R133). -/
theorem exec_retlw_cases (k : Byte) (s : State) :
    (s.sp = 0 ∧ exec (.retlw k) s = .fault .stackUnderflow)
      ∨ (0 < s.sp ∧ exec (.retlw k) s = .next { s with stk0 := s.stk1, sp := s.sp - 1, w := k, pc := s.stk0 }) := by
  change (_ ∧ execRetlw k s = _) ∨ (_ ∧ execRetlw k s = _)
  unfold execRetlw
  rcases s.pop_cases with ⟨empty, e⟩ | ⟨entry, e⟩ <;> rw [e]
  · exact .inl ⟨empty, rfl⟩
  · exact .inr ⟨entry, rfl⟩

/-- The word of a TRIS instruction is the file address of its port (R74, R126). -/
theorem encode_trisInstr (p : Port) : encode (trisInstr p) = BitVec.ofNat 12 p.fileAddr := by
  cases p <;> rfl

theorem exec_trisInstr (p : Port) (s : State) : exec (trisInstr p) s = s.loadTris p := by
  cases p <;> rfl

/-- TRIS completes where the variant has the port; elsewhere its word is no instruction (R126). -/
theorem exec_trisInstr_stop (p : Port) (s : State) :
    (∃ t, exec (trisInstr p) s = .next t)
      ∨ (s.variant.hasPort p = false ∧ exec (trisInstr p) s = .fault (.illegalEncoding (encode (trisInstr p)))) := by
  rw [exec_trisInstr, encode_trisInstr]
  rcases s.loadTris_cases p with ⟨_, e⟩ | ⟨absent, e⟩
  · exact .inl ⟨_, e⟩
  · exact .inr ⟨absent, e⟩

/-- An instruction writes PCL only with a file destination whose operand selects it (R15). -/
theorem destReg_eq_pcl_iff (d : Dest) (r : FileReg) : destReg d r = some .pcl ↔ d = .f ∧ r = .pcl := by
  cases d <;> simp [destReg]

/-- DECFSZ and INCFSZ complete unless they would write PCL; then the form is refused (R144). -/
theorem State.countSkip_stop (s : State) (f : FileAddr) (d : Dest) (g : Byte → Byte) :
    (∃ t, s.countSkip f d g = .next t)
      ∨ ((d = .f ∧ s.sel f = .pcl) ∧ s.countSkip f d g = .fault (.refusedForm "skip with PCL destination")) := by
  rcases s.countSkip_cases f d g with ⟨pcl, e⟩ | ⟨_, t, e, _⟩
  · exact .inr ⟨(destReg_eq_pcl_iff d _).mp pcl, e⟩
  · exact .inl ⟨t, e⟩

/-! ### Every instruction -/

/-- Settles O18, by cases on the instruction: the four kinds that can stop have their own lemma above, the meaning of
every other one is a next state. -/
theorem instructionsStopOnlyWhereTheSpecRaises : Obligations.InstructionsStopOnlyWhereTheSpecRaises := by
  intro i s
  have tris (p : Port) (hi : i = trisInstr p) : (∃ t, exec i s = .next t)
      ∨ ∃ p, i = trisInstr p ∧ s.variant.hasPort p = false ∧ exec i s = .fault (.illegalEncoding (encode i)) := by
    subst hi
    exact (exec_trisInstr_stop p s).imp_right fun stop => ⟨p, rfl, stop⟩
  cases i with
  | call k =>
    rcases exec_call_cases k s with ⟨full, e⟩ | ⟨_, e⟩
    · exact .inr (.inl ⟨⟨k, rfl⟩, full, e⟩)
    · exact .inl ⟨_, e⟩
  | retlw k =>
    rcases exec_retlw_cases k s with ⟨empty, e⟩ | ⟨_, e⟩
    · exact .inr (.inr (.inl ⟨⟨k, rfl⟩, empty, e⟩))
    · exact .inl ⟨_, e⟩
  | decfsz f d =>
    rcases s.countSkip_stop f d (fun x => x - 1) with done | ⟨⟨rfl, pcl⟩, e⟩
    · exact .inl done
    · exact .inr (.inr (.inr (.inl ⟨⟨f, .inl rfl, pcl⟩, e⟩)))
  | incfsz f d =>
    rcases s.countSkip_stop f d (fun x => x + 1) with done | ⟨⟨rfl, pcl⟩, e⟩
    · exact .inl done
    · exact .inr (.inr (.inr (.inl ⟨⟨f, .inr rfl, pcl⟩, e⟩)))
  | trisA => exact (tris .a rfl).imp_right (.inr ∘ .inr ∘ .inr)
  | trisB => exact (tris .b rfl).imp_right (.inr ∘ .inr ∘ .inr)
  | trisC => exact (tris .c rfl).imp_right (.inr ∘ .inr ∘ .inr)
  | trisD => exact (tris .d rfl).imp_right (.inr ∘ .inr ∘ .inr)
  | trisE => exact (tris .e rfl).imp_right (.inr ∘ .inr ∘ .inr)
  | _ => exact .inl ⟨_, rfl⟩

end Sys2Proof.Machine

/-! The invariant of the state (spec/10_state.md R22, R30, R34, R37, R38, R40, R51): what each update of the state needs to
keep it, and from that every instruction, every reset and every step. -/

namespace Sys2Proof.Machine

section
variable {s : State}

/-! ### The invariant under each update -/

theorem State.pcPlus_lt (s : State) (n : ProgAddr) : (s.pcPlus n).toNat < 2 ^ s.variant.pcBits :=
  (s.pcPlus_toNat n).trans_lt (nextAddr_lt s _)

theorem State.lowTarget_lt (s : State) (k : Byte) : (s.lowTarget k).toNat < 2 ^ s.variant.pcBits :=
  (s.lowTarget_toNat k).trans_lt (pageAddr_lt s _)

theorem State.gotoTarget_lt (s : State) (k : BitVec 9) : (s.gotoTarget k).toNat < 2 ^ s.variant.pcBits :=
  (s.gotoTarget_toNat k).trans_lt (pageAddr_lt s _)

/-- A masked address is an address of the variant. -/
theorem and_pcMask_lt (v : Variant) (x : ProgAddr) : (x &&& v.pcMask).toNat < 2 ^ v.pcBits :=
  (and_pcMask_toNat v x).trans_lt (Nat.mod_lt _ (Nat.two_pow_pos _))

/-- A masked byte fits FSR. -/
theorem and_fsrMask_lt (v : Variant) (x : Byte) : (x &&& v.fsrMask).toNat < 2 ^ v.fsrBits :=
  (and_fsrMask_toNat v x).trans_lt (Nat.mod_lt _ (Nat.two_pow_pos _))

/-- A byte stored for a port the variant has keeps every byte of the port file within the implemented bits (R35). -/
theorem PortFile.set_within_portMask {v : Variant} {x : PortFile} (hx : ∀ q, x.get q &&& v.portMask q = x.get q)
    {p : Port} (hp : v.hasPort p = true) (y : Byte) (q : Port) :
    (x.set p (y &&& p.mask)).get q &&& v.portMask q = (x.set p (y &&& p.mask)).get q := by
  rw [PortFile.get_set]
  split_ifs with hq
  · rw [hq, Variant.portMask, if_pos hp, BitVec.and_assoc, BitVec.and_self]
  · exact hx q

theorem StateInv.with_pc (inv : StateInv s) {a : ProgAddr} (ha : a.toNat < 2 ^ s.variant.pcBits) :
    StateInv { s with pc := a } :=
  let ⟨_, rest⟩ := inv
  ⟨ha, rest⟩

theorem StateInv.advance (inv : StateInv s) : StateInv s.advance := inv.with_pc (s.pcPlus_lt 1)

theorem StateInv.advanceOrSkip (inv : StateInv s) (c : Bool) : StateInv (s.advanceOrSkip c) := by
  cases c with
  | false => exact inv.with_pc (s.pcPlus_lt 1)
  | true => exact inv.with_pc (s.pcPlus_lt 2)

theorem StateInv.finish (inv : StateInv s) (r : FileReg) : StateInv (s.finish r) := by
  unfold State.finish
  split_ifs
  · exact inv
  · exact inv.advance

/-- A load of the TRIS register of a port the variant has (R34, R126). -/
theorem StateInv.loadTris (inv : StateInv s) {p : Port} (hp : s.variant.hasPort p = true) (y : Byte) :
    StateInv { s with tris := s.tris.set p (y &&& p.mask) } := by
  obtain ⟨hpc, h0, h1, hsp, hfsr, htris, rest⟩ := inv
  exact ⟨hpc, h0, h1, hsp, hfsr, PortFile.set_within_portMask htris hp y, rest⟩

/-- A write to the register that a file operand selects: a port only where the variant has it, a storage byte only under
its own address (R35, R38). -/
theorem StateInv.writeReg (inv : StateInv s) (f : FileAddr) (y : Byte) (flags : Bool) :
    StateInv (s.writeReg (s.sel f) y flags) := by
  have write_pc := inv.with_pc (s.lowTarget_lt y)
  have store_byte (a : Nat) (ha : isStorage s.variant a = true) (c : Host.Cell) (hc : c ∈ s.ram.write a y)
      (listed : ∀ c ∈ s.ram, isStorage s.variant c.1 = true) : isStorage s.variant c.1 = true := by
    rcases Memory.mem_write hc with e | old
    · rw [e]; exact ha
    · exact listed c old
  obtain ⟨hpc, h0, h1, hsp, hfsr, htris, hlat, hram, hlisted, hprog⟩ := inv
  cases hr : s.sel f with
  | pcl => exact write_pc
  | fsr => exact ⟨hpc, h0, h1, hsp, and_fsrMask_lt _ y, htris, hlat, hram, hlisted, hprog⟩
  | port p =>
    exact ⟨hpc, h0, h1, hsp, hfsr, htris, PortFile.set_within_portMask hlat (s.sel_hasPort f hr) y, hram, hlisted, hprog⟩
  | storage a =>
    exact ⟨hpc, h0, h1, hsp, hfsr, htris, hlat, Memory.wf_write hram a y,
      fun c hc => store_byte a (s.sel_isStorage f hr) c hc hlisted, hprog⟩
  | indf | tmr0 | status => exact ⟨hpc, h0, h1, hsp, hfsr, htris, hlat, hram, hlisted, hprog⟩

/-- The end of an instruction with a result (R90). -/
theorem StateInv.commit (inv : StateInv s) (d : Dest) (f : FileAddr) (y : Byte) (u : FlagUpdate) :
    StateInv (s.commit d (s.sel f) y u) := by
  cases d with
  | w =>
    have loaded : StateInv ({ s with w := y }.setFlags u) := inv
    exact loaded.advance
  | f =>
    have written : StateInv ((s.writeReg (s.sel f) y (!u.isNone)).setFlags u) := inv.writeReg f y _
    exact written.finish _

/-- A CALL below the full stack (R40, R41). -/
theorem StateInv.call (inv : StateInv s) (room : s.sp < 2) (k : Byte) :
    StateInv { s with stk1 := s.stk0, stk0 := s.pcPlus 1, sp := s.sp + 1, pc := s.lowTarget k } := by
  obtain ⟨_, h0, _, _, rest⟩ := inv
  exact ⟨s.lowTarget_lt k, s.pcPlus_lt 1, h0, room, rest⟩

/-- A RETLW (R40, R42). -/
theorem StateInv.retlw (inv : StateInv s) (k : Byte) :
    StateInv { s with stk0 := s.stk1, sp := s.sp - 1, w := k, pc := s.stk0 } := by
  obtain ⟨_, h0, h1, hsp, rest⟩ := inv
  exact ⟨h0, h1, h1, (Nat.sub_le _ _).trans hsp, rest⟩

/-! ### Reset, instructions, steps -/

/-- A port file whose bytes are masked has implemented bits only (R35). -/
theorem PortFile.build_within_portMask (v : Variant) (g : Port → Byte) (p : Port) :
    (PortFile.build fun q => g q &&& v.portMask q).get p &&& v.portMask p
      = (PortFile.build fun q => g q &&& v.portMask q).get p := by
  rw [PortFile.get_build, BitVec.and_assoc, BitVec.and_self]

/-- The reset entry is the last address of the variant (R46, R173). -/
theorem resetPc_toNat (v : Variant) : v.resetPc.toNat = 2 ^ v.pcBits - 1 := by cases v <;> rfl

theorem resetPc_lt (v : Variant) : v.resetPc.toNat < 2 ^ v.pcBits :=
  (resetPc_toNat v).trans_lt (Nat.sub_lt (Nat.two_pow_pos _) one_pos)

/-- A reset event gives every register a value within its width, and keeps program memory (R170, R171). -/
theorem StateInv.takeReset (inv : StateInv s) (c : ResetCause) (cs : List ResetCause) :
    StateInv (s.takeReset c cs) := by
  obtain ⟨_, _, _, _, _, _, _, _, _, hprog⟩ := inv
  obtain ⟨hram, hlisted⟩ := ramAfterReset_wf s.variant s.draws
  have htris (p : Port) : (PortFile.build s.variant.portMask).get p &&& s.variant.portMask p
      = (PortFile.build s.variant.portMask).get p := by rw [PortFile.get_build, BitVec.and_self]
  exact ⟨resetPc_lt _, and_pcMask_lt _ _, and_pcMask_lt _ _, Nat.zero_le 2, and_fsrMask_lt _ _, htris,
    PortFile.build_within_portMask _ _, hram, hlisted, hprog⟩

/-- Every instruction that completes keeps the invariant, by what an instruction can do. -/
theorem StateInv.exec {i : Instr} {t : State} (inv : StateInv s) (run : exec i s = .next t) : StateInv t := by
  have with_inputs (as : List Byte) (n : Nat) : StateInv { s with answers := as, draws := n } := inv
  rcases exec_cases run with ⟨as, n, d, f, y, u, rfl⟩ | ⟨as, n, f, y, c, _, rfl⟩ | ⟨as, n, y, c, rfl⟩ | ⟨_, rfl⟩
    | ⟨p, _, hp, rfl⟩ | ⟨_, rfl⟩ | ⟨_, rfl⟩ | ⟨_, rfl⟩ | ⟨k, _, rfl⟩ | ⟨k, _, room, rfl⟩ | ⟨k, _, _, rfl⟩
  · exact (with_inputs as n).commit d f y u
  · exact ((with_inputs as n).writeReg f y false).advanceOrSkip c
  · have loaded : StateInv { s with answers := as, draws := n, w := y } := inv
    exact loaded.advanceOrSkip c
  · have loaded : StateInv { s with optionReg := s.w } := inv
    exact loaded.advance
  · exact (inv.loadTris hp s.w).advance
  · exact inv.advance
  · have slept : StateInv
        { s with wdt := 0, pre := 0, status := statusToPd s.status true false, asleep := true } := inv
    exact slept.advance
  · have cleared : StateInv { s with wdt := 0, pre := 0, status := statusToPd s.status true true } := inv
    exact cleared.advance
  · exact inv.with_pc (s.gotoTarget_lt k)
  · exact inv.call room k
  · exact inv.retlw k

theorem StateInv.passBoundary (inv : StateInv s) : StateInv s.passBoundary := by
  unfold State.passBoundary
  split_ifs <;> exact inv

end

/-- Settles O16: a step is a reset, an idle step asleep, or an instruction, and each keeps the invariant. -/
theorem everyStepKeepsTheInvariant : Obligations.EveryStepKeepsTheInvariant := by
  intro s t inv run
  rcases step_cases run with ⟨c, cs, _, rfl⟩ | ⟨_, _, rfl⟩ | ⟨_, _, i, _, run⟩
  · exact inv.takeReset c cs
  · exact inv.passBoundary
  · exact inv.passBoundary.exec run

/-- Settles O11: in the initial state every register is within its width, and both memories are empty. -/
theorem initialStateMeetsTheInvariant : Obligations.InitialStateMeetsTheInvariant := by
  intro v
  have unlisted {x : Type} {p : Nat × x → Prop} (c) (hc : c ∈ ([] : List (Nat × x))) : p c := nomatch hc
  have htris (p : Port) : (State.resetOf v).tris.get p &&& v.portMask p = (State.resetOf v).tris.get p := by
    cases p <;> exact BitVec.and_self
  have hlat (p : Port) : (State.resetOf v).lat.get p &&& v.portMask p = (State.resetOf v).lat.get p := by
    cases p <;> exact BitVec.zero_and
  exact ⟨resetPc_lt v, Nat.two_pow_pos _, Nat.two_pow_pos _, Nat.zero_le 2, Nat.two_pow_pos _, htris, hlat, rfl, unlisted,
    rfl, unlisted⟩

/-- Settles O10: the values are those `State.resetOf` names; the entry is the last address of the variant. -/
theorem initialStateHasTheResetLineValues : Obligations.InitialStateHasTheResetLineValues := by
  intro v
  have htris (p : Port) : (State.resetOf v).tris.get p = if v.hasPort p then p.mask else 0 := by cases p <;> rfl
  exact ⟨resetPc_toNat v, rfl, rfl, htris, rfl, rfl, rfl⟩

/-- A step asleep with no reset answers the state after the boundary (R164). -/
theorem step_asleep {s : State} (asleep : s.asleep = true) (quiet : s.resetCauses = []) :
    step s = .next s.passBoundary := by
  unfold step
  rw [quiet]
  exact if_pos ((State.passBoundary_asleep s).trans asleep)

/-- Settles O9: SLEEP and reset by their meanings, the idle step by `step_asleep`; passing the boundary uses up at most
one free value. -/
theorem asleepIsSetBySleepClearedByResetAndIdle : Obligations.AsleepIsSetBySleepClearedByResetAndIdle := by
  refine ⟨fun s => ⟨_, rfl, rfl⟩, fun s c cs => rfl, fun s asleep quiet => ?_⟩
  rw [step_asleep asleep quiet]
  by_cases hw : s.wdtEnabled = true
  · exact ⟨s.draws + 1, congrArg _ (State.passBoundary_of_enabled hw), fun off => absurd (hw.symm.trans off) nofun⟩
  · have off := Bool.eq_false_of_not_eq_true hw
    exact ⟨s.draws, congrArg _ (State.passBoundary_of_disabled off), fun _ => rfl⟩

end Sys2Proof.Machine

/-! What a program can observe (spec/10_state.md R31, R33, R34, R37, R43, R45): every shared operation, every instruction
and every step answers alike on a state and on the state with its write-only registers erased. -/

namespace Sys2Proof.Machine

/-- An outcome with everything erased that no instruction reads back. -/
def hideOutcome : Host.Outcome State Fault Refusal → Host.Outcome State Fault Refusal
  | .next t => .next (hideOutputs t)
  | .fault e => .fault e
  | .refused e => .refused e

theorem sameToProgram_iff (o o' : Host.Outcome State Fault Refusal) :
    SameToProgram o o' ↔ hideOutcome o = hideOutcome o' := by
  cases o <;> cases o' <;> simp [SameToProgram, hideOutcome]

theorem hideOutcome_next_congr {t t' : State} (h : hideOutputs t = hideOutputs t') :
    hideOutcome (.next t) = hideOutcome (.next t') := congrArg Host.Outcome.next h

theorem hideOutcome_next_of_eq {t t' : State} (h : t = hideOutputs t') :
    hideOutcome (.next t) = hideOutcome (.next t') := by
  rw [h]; rfl

/-! ### Operations that read: they commute with the erasure -/

theorem draw_hideOutputs (s : State) (g : Nat → Byte) :
    (hideOutputs s).draw g = ((s.draw g).1, hideOutputs (s.draw g).2) := by
  cases h : s.answers <;> simp [State.draw, hideOutputs, h]

/-- The operand of an instruction selects the same register (R55, R56). -/
theorem sel_hideOutputs (s : State) (f : FileAddr) : (hideOutputs s).sel f = s.sel f := rfl

/-- No read returns an erased register: a port and TMR0 answer from the environment (R31, R36). -/
theorem readReg_hideOutputs (s : State) (r : FileReg) :
    (hideOutputs s).readReg r = ((s.readReg r).1, hideOutputs (s.readReg r).2) := by
  cases r with
  | tmr0 => exact draw_hideOutputs s _
  | port p => simp only [State.readReg, draw_hideOutputs]
  | _ => rfl

theorem advanceOrSkip_hideOutputs (s : State) (c : Bool) :
    (hideOutputs s).advanceOrSkip c = hideOutputs (s.advanceOrSkip c) := by cases c <;> rfl

theorem testSkip_hideOutputs (s : State) (f : FileAddr) (b : BitIndex) (want : Bool) :
    (hideOutputs s).testSkip f b want = hideOutputs (s.testSkip f b want) := by
  unfold State.testSkip
  rw [sel_hideOutputs, readReg_hideOutputs]
  exact advanceOrSkip_hideOutputs _ _

theorem passBoundary_hideOutputs (s : State) : (hideOutputs s).passBoundary = hideOutputs s.passBoundary := by
  by_cases h : s.wdtEnabled = true
  · rw [State.passBoundary_of_enabled h, State.passBoundary_of_enabled (s := hideOutputs s) h]; rfl
  · have off := Bool.eq_false_of_not_eq_true h
    rw [State.passBoundary_of_disabled off, State.passBoundary_of_disabled (s := hideOutputs s) off]

/-! ### Operations that write: they may write an erased register, and nothing else depends on one -/

theorem hideOutputs_writeReg (s : State) (r : FileReg) (y : Byte) (flags : Bool) :
    hideOutputs ((hideOutputs s).writeReg r y flags) = hideOutputs (s.writeReg r y flags) := by
  cases r <;> rfl

theorem hideOutputs_commit (s : State) (d : Dest) (r : FileReg) (y : Byte) (u : FlagUpdate) :
    hideOutputs ((hideOutputs s).commit d r y u) = hideOutputs (s.commit d r y u) := by
  cases d with
  | w => rfl
  | f => cases r <;> rfl

theorem hideOutputs_fileOp (s : State) (f : FileAddr) (d : Dest) (g : Byte → Byte × FlagUpdate) :
    hideOutputs ((hideOutputs s).fileOp f d g) = hideOutputs (s.fileOp f d g) := by
  unfold State.fileOp
  rw [sel_hideOutputs, readReg_hideOutputs]
  exact hideOutputs_commit _ d (s.sel f) _ _

/-- DECFSZ and INCFSZ are refused alike, and skip alike. -/
theorem hideOutcome_countSkip (s : State) (f : FileAddr) (d : Dest) (g : Byte → Byte) :
    hideOutcome ((hideOutputs s).countSkip f d g) = hideOutcome (s.countSkip f d g) := by
  unfold State.countSkip
  simp only [sel_hideOutputs, readReg_hideOutputs]
  split_ifs with refused
  · rfl
  cases d with
  | w =>
    apply hideOutcome_next_congr
    rw [← advanceOrSkip_hideOutputs, ← advanceOrSkip_hideOutputs]; rfl
  | f =>
    apply hideOutcome_next_congr
    rw [← advanceOrSkip_hideOutputs, hideOutputs_writeReg, advanceOrSkip_hideOutputs]

theorem hideOutcome_loadTris (s : State) (p : Port) :
    hideOutcome ((hideOutputs s).loadTris p) = hideOutcome (s.loadTris p) := by
  rcases s.loadTris_cases p, (hideOutputs s).loadTris_cases p with
    ⟨⟨has, e⟩ | ⟨lacks, e⟩, ⟨has', e'⟩ | ⟨lacks', e'⟩⟩
  · rw [e, e']; rfl
  · exact absurd (has.symm.trans lacks') nofun
  · exact absurd (has'.symm.trans lacks) nofun
  · rw [e, e']

/-! ### Instructions and steps -/

/-- Every instruction, by the shared operation it is written with. -/
theorem hideOutcome_exec (i : Instr) (s : State) : hideOutcome (exec i (hideOutputs s)) = hideOutcome (exec i s) := by
  cases i with
  | nop | option | sleep | clrwdt | clrw | goto | movlw | iorlw | andlw | xorlw => rfl
  | trisA | trisB | trisC | trisD | trisE => exact hideOutcome_loadTris s _
  | movwf f => exact hideOutcome_next_congr (hideOutputs_commit s .f (s.sel f) s.w .keep)
  | clrf f => exact hideOutcome_next_congr (hideOutputs_commit s .f (s.sel f) 0 (.zero 0))
  | decfsz f d => exact hideOutcome_countSkip s f d (fun x => x - 1)
  | incfsz f d => exact hideOutcome_countSkip s f d (fun x => x + 1)
  | btfsc f b => exact hideOutcome_next_of_eq (testSkip_hideOutputs s f b false)
  | btfss f b => exact hideOutcome_next_of_eq (testSkip_hideOutputs s f b true)
  | call k =>
    rcases exec_call_cases k s, exec_call_cases k (hideOutputs s) with
      ⟨⟨full, e⟩ | ⟨room, e⟩, ⟨full', e'⟩ | ⟨room', e'⟩⟩
    · rw [e, e']
    · exact absurd full (Nat.not_le.2 room')
    · exact absurd full' (Nat.not_le.2 room)
    · rw [e, e']; rfl
  | retlw k =>
    rcases exec_retlw_cases k s, exec_retlw_cases k (hideOutputs s) with
      ⟨⟨empty, e⟩ | ⟨entry, e⟩, ⟨empty', e'⟩ | ⟨entry', e'⟩⟩
    · rw [e, e']
    · exact absurd empty entry'.ne'
    · exact absurd empty' entry.ne'
    · rw [e, e']; rfl
  | _ => exact hideOutcome_next_congr (hideOutputs_fileOp s _ _ _)

/-- The core's part of a step: asleep or not, it fetches and decodes the same word. -/
theorem hideOutcome_coreStep (s : State) : hideOutcome (coreStep (hideOutputs s)) = hideOutcome (coreStep s) := by
  have asleep : (hideOutputs s).asleep = s.asleep := rfl
  have word : (hideOutputs s).fetch = s.fetch := rfl
  have variant : (hideOutputs s).variant = s.variant := rfl
  unfold coreStep
  rw [asleep, word, variant]
  split_ifs
  · rfl
  · cases decode s.variant s.fetch with
    | ok i => exact hideOutcome_exec i s
    | error e => rfl

/-- Every step: the causes of a reset at the boundary are the same (R153, R165). -/
theorem hideOutcome_step (s : State) : hideOutcome (step (hideOutputs s)) = hideOutcome (step s) := by
  have causes : (hideOutputs s).resetCauses = s.resetCauses := rfl
  unfold step
  rw [causes, passBoundary_hideOutputs]
  cases s.resetCauses with
  | cons c cs => rfl
  | nil => exact hideOutcome_coreStep s.passBoundary

/-- Settles O22: both steps are, to a program, the step of the one state that both erase to. -/
theorem writeOnlyStateNeverReachesTheProgram : Obligations.WriteOnlyStateNeverReachesTheProgram := by
  intro s s' same
  rw [sameToProgram_iff, ← hideOutcome_step s, same, hideOutcome_step]

end Sys2Proof.Machine

/-! Which instruction changes what (spec/10_state.md R27, R33, R34, R40, R43, R44): every instruction leaves a state as
`Leaves` says, or is one of those with an effect of its own. -/

namespace Sys2Proof.Machine

/-! ### What `Leaves` keeps -/

section
variable {s t : State} {r : Option FileReg} {y : Byte} {c dc z : Option Bool} {n : Nat}

/-- Answers of the environment that were used up before do not count (log entry 10). -/
theorem Leaves.of_inputs {as : List Byte} {k : Nat} (h : Leaves { s with answers := as, draws := k } t r y c dc z n) :
    Leaves s t r y c dc z n := h

theorem Leaves.untouched (h : Leaves s t r y c dc z n) : Untouched s t :=
  let ⟨_, _, _, _, u⟩ := h
  u

/-- No result reaches /TO or /PD, not even one written to STATUS (R27, R29). -/
theorem Leaves.toPd (h : Leaves s t r y c dc z n) :
    t.status.getLsbD 4 = s.status.getLsbD 4 ∧ t.status.getLsbD 3 = s.status.getLsbD 3 :=
  let ⟨_, _, ⟨_, h4, h3, _⟩, _⟩ := h
  ⟨h4, h3⟩

theorem Leaves.sameStack (h : Leaves s t r y c dc z n) : SameStack s t :=
  let ⟨_, stack, _⟩ := h.untouched
  stack

end

/-- A byte in W, no flag, and one word on or two. -/
theorem State.loadW_skip_leaves (s : State) (y : Byte) (c : Bool) :
    ∃ n, Leaves s ({ s with w := y }.advanceOrSkip c) none y none none none n := by
  have at_pc (n : ProgAddr) : Leaves s { s with w := y, pc := s.pcPlus n } none y none none none n.toNat :=
    ⟨rfl, ⟨rfl, rfl, fun _ => rfl, fun _ => rfl⟩, status_holds (u := .keep) rfl, s.pcPlus_toNat n,
      ⟨rfl, rfl, rfl⟩, ⟨rfl, rfl, rfl⟩, ⟨rfl, rfl⟩, ⟨rfl, rfl⟩, rfl, rfl⟩
  cases c with
  | false => exact ⟨_, at_pc 1⟩
  | true => exact ⟨_, at_pc 2⟩

/-- A write to a register other than PCL, no flag, and one word on or two. -/
theorem State.writeReg_skip_leaves (s : State) (r : FileReg) (hr : r ≠ .pcl) (y : Byte) (c : Bool) :
    ∃ n, Leaves s ((s.writeReg r y false).advanceOrSkip c) (some r) y none none none n := by
  refine ⟨(if c then 2 else 1 : ProgAddr).toNat, s.writeReg_leaves _ r y .keep _ ?_⟩
  rw [if_neg hr]
  cases c <;> cases r <;> first | rfl | exact absurd rfl hr

/-! ### Every instruction -/

/-- What an instruction can do, with all results in W or in a file register taken together. -/
theorem exec_leaves_cases {i : Instr} {s t : State} (run : exec i s = .next t) :
    (∃ r y c dc z n, Leaves s t r y c dc z n)
      ∨ (i = .option ∧ t = { s with optionReg := s.w, pc := s.pcPlus 1 })
      ∨ (∃ p x, i = trisInstr p ∧ t = { s with tris := x, pc := s.pcPlus 1 })
      ∨ ((i = .sleep ∨ i = .clrwdt) ∧ SameStack s t ∧ SameOutside s t ∧ (i ≠ .sleep → t.asleep = s.asleep))
      ∨ (∃ a, t = { s with pc := a })
      ∨ ((∃ k, i = .call k ∨ i = .retlw k)
          ∧ ∃ x a a0 a1 m, t = { s with w := x, pc := a, stk0 := a0, stk1 := a1, sp := m }) := by
  rcases exec_cases run with ⟨as, n, d, f, y, u, rfl⟩ | ⟨as, n, f, y, c, hf, rfl⟩ | ⟨as, n, y, c, rfl⟩ | ⟨hi, rfl⟩
    | ⟨p, hi, _, rfl⟩ | ⟨_, rfl⟩ | ⟨hi, rfl⟩ | ⟨hi, rfl⟩ | ⟨k, _, rfl⟩ | ⟨k, hi, _, rfl⟩ | ⟨k, hi, _, rfl⟩
  · exact .inl ⟨_, _, _, _, _, _, ({ s with answers := as, draws := n }.commit_leaves d (s.sel f) y u).of_inputs⟩
  · obtain ⟨_, left⟩ := { s with answers := as, draws := n }.writeReg_skip_leaves (s.sel f) hf y c
    exact .inl ⟨_, _, _, _, _, _, left.of_inputs⟩
  · obtain ⟨_, left⟩ := { s with answers := as, draws := n }.loadW_skip_leaves y c
    exact .inl ⟨_, _, _, _, _, _, left.of_inputs⟩
  · exact .inr (.inl ⟨hi, rfl⟩)
  · exact .inr (.inr (.inl ⟨p, _, hi, rfl⟩))
  · exact .inr (.inr (.inr (.inr (.inl ⟨_, rfl⟩))))
  · exact .inr (.inr (.inr (.inl ⟨.inl hi, ⟨rfl, rfl, rfl⟩, ⟨rfl, rfl⟩, fun ne => absurd hi ne⟩)))
  · exact .inr (.inr (.inr (.inl ⟨.inr hi, ⟨rfl, rfl, rfl⟩, ⟨rfl, rfl⟩, fun _ => rfl⟩)))
  · exact .inr (.inr (.inr (.inr (.inl ⟨_, rfl⟩))))
  · exact .inr (.inr (.inr (.inr (.inr ⟨⟨k, .inl hi⟩, _, _, _, _, _, rfl⟩))))
  · exact .inr (.inr (.inr (.inr (.inr ⟨⟨k, .inr hi⟩, _, _, _, _, _, rfl⟩))))

/-- Settles O19: a result never reaches /TO or /PD, and of the other instructions only SLEEP and CLRWDT write STATUS. -/
theorem onlySleepAndClrwdtChangeToAndPd : Obligations.OnlySleepAndClrwdtChangeToAndPd := by
  intro i s t run notSleep notClrwdt
  rcases exec_leaves_cases run with ⟨_, _, _, _, _, _, left⟩ | ⟨_, rfl⟩ | ⟨_, _, _, rfl⟩ | ⟨sys, _⟩ | ⟨_, rfl⟩
    | ⟨_, _, _, _, _, _, rfl⟩
  · exact left.toPd
  · exact ⟨rfl, rfl⟩
  · exact ⟨rfl, rfl⟩
  · exact absurd sys (not_or.2 ⟨notSleep, notClrwdt⟩)
  · exact ⟨rfl, rfl⟩
  · exact ⟨rfl, rfl⟩

/-- Settles O20: a result in W or in a file register leaves the stack, and so does every other instruction but the two. -/
theorem onlyCallAndRetlwTouchTheStack : Obligations.OnlyCallAndRetlwTouchTheStack := by
  intro i s t run notCall notRetlw
  rcases exec_leaves_cases run with ⟨_, _, _, _, _, _, left⟩ | ⟨_, rfl⟩ | ⟨_, _, _, rfl⟩ | ⟨_, stack, _⟩ | ⟨_, rfl⟩
    | ⟨⟨k, stackInstr⟩, _⟩
  · exact left.sameStack
  · exact ⟨rfl, rfl, rfl⟩
  · exact ⟨rfl, rfl, rfl⟩
  · exact stack
  · exact ⟨rfl, rfl, rfl⟩
  · exact absurd stackInstr (not_or.2 ⟨notCall k, notRetlw k⟩)

/-- Settles O21: a result in W or in a file register leaves all four, and each other instruction all but its own. -/
theorem eachRegisterOutsideTheFileHasItsOwnWriter : Obligations.EachRegisterOutsideTheFileHasItsOwnWriter := by
  intro i s t run
  rcases exec_leaves_cases run with ⟨_, _, _, _, _, _, left⟩ | ⟨isOption, rfl⟩ | ⟨p, _, isTris, rfl⟩
    | ⟨sys, _, ⟨option, tris⟩, awake⟩ | ⟨_, rfl⟩ | ⟨_, _, _, _, _, _, rfl⟩
  · obtain ⟨_, _, ⟨option, tris⟩, watchdog, asleep, _⟩ := left.untouched
    exact ⟨fun _ => option, fun _ => tris, fun _ _ => watchdog, fun _ => asleep⟩
  · exact ⟨fun ne => absurd isOption ne, fun _ => rfl, fun _ _ => ⟨rfl, rfl⟩, fun _ => rfl⟩
  · exact ⟨fun _ => rfl, fun ne => absurd isTris (ne p), fun _ _ => ⟨rfl, rfl⟩, fun _ => rfl⟩
  · exact ⟨fun _ => option, fun _ => tris, fun ne ne' => absurd sys (not_or.2 ⟨ne, ne'⟩), awake⟩
  · exact ⟨fun _ => rfl, fun _ => rfl, fun _ _ => ⟨rfl, rfl⟩, fun _ => rfl⟩
  · exact ⟨fun _ => rfl, fun _ => rfl, fun _ _ => ⟨rfl, rfl⟩, fun _ => rfl⟩

end Sys2Proof.Machine

/-! What file operands select, and what a store leaves in the file (spec/20_memory.md R54 to R56, spec/10_state.md R37 and
R38). -/

namespace Sys2Proof.Machine

/-! ### Selection by a direct operand -/

/-- The selection depends on the variant and FSR alone (R56). -/
theorem State.sel_congr {s t : State} (variant : t.variant = s.variant) (fsr : t.fsr = s.fsr) (f : FileAddr) :
    t.sel f = s.sel f := by
  unfold State.sel State.ea
  rw [variant, fsr]

/-- The effective address of a direct operand: the bank bits of FSR above the operand (R56). -/
theorem State.ea_direct (s : State) {f : FileAddr} (direct : f ≠ 0) :
    s.ea f = (s.fsr &&& s.variant.fsrMask).extractLsb' 5 3 ++ f := if_neg direct

theorem State.ea_direct_toNat (s : State) {f : FileAddr} (direct : f ≠ 0) :
    (s.ea f).toNat = 32 * (s.fsr.toNat % 2 ^ s.variant.fsrBits / 32) + f.toNat := by
  have bank_lt : (s.fsr &&& s.variant.fsrMask).toNat / 32 < 2 ^ 3 := by omega
  rw [s.ea_direct direct, ← and_fsrMask_toNat, BitVec.toNat_append, BitVec.extractLsb'_toNat,
    Nat.shiftRight_eq_div_pow, Nat.mod_eq_of_lt bank_lt, Nat.shiftLeft_eq, Nat.mul_comm,
    ← Nat.two_pow_add_eq_or_of_lt f.isLt]

/-- Bit 4 of the effective address tells the banked bytes 10..1F from the common registers (R55). -/
theorem State.ea_direct_getLsbD_four (s : State) {f : FileAddr} (direct : f ≠ 0) :
    (s.ea f).getLsbD 4 = decide (16 ≤ f.toNat) := by
  rw [s.ea_direct direct, BitVec.getLsbD_append, if_pos (by omega)]
  exact f.msb_eq_decide

/-- A direct operand 10..1F selects the storage byte of the bank that FSR names (R55, R56). -/
theorem State.sel_banked (s : State) {f : FileAddr} (banked : 16 ≤ f.toNat) :
    s.sel f = .storage (32 * (s.fsr.toNat % 2 ^ s.variant.fsrBits / 32) + f.toNat) := by
  have direct : f ≠ 0 := by rintro rfl; contradiction
  rw [State.sel, selectReg, s.ea_direct_getLsbD_four direct, if_pos (decide_eq_true banked), s.ea_direct_toNat direct]

/-- A direct operand 01..0F selects the register in its row of R54, whatever the bank (R55). -/
theorem State.sel_common (s : State) {f : FileAddr} (direct : f ≠ 0) (common : f.toNat < 16) :
    s.sel f = commonReg s.variant (f.extractLsb' 0 4) := by
  have row : (s.ea f).extractLsb' 0 4 = f.extractLsb' 0 4 := by
    rw [s.ea_direct direct]
    exact BitVec.extractLsb'_append_eq_of_add_le (by decide)
  rw [State.sel, selectReg, s.ea_direct_getLsbD_four direct, if_neg (by simpa using common), row]

theorem State.sel_pcl (s : State) : s.sel 2 = .pcl := s.sel_common (by decide) (by decide)

theorem State.sel_status (s : State) : s.sel 3 = .status := s.sel_common (by decide) (by decide)

/-- The value of an operand by the register it selects. -/
theorem State.fileValue_of_sel {s : State} {f : FileAddr} {r : FileReg} (h : s.sel f = r) :
    s.fileValue f = (s.readReg r).1 := by
  rw [State.fileValue, h]

/-! ### The file after a write to one kind of register -/

section
variable {s t : State} {y : Byte}

theorem FileHolds.of_storage {a : Nat} (h : FileHolds s t (some (.storage a)) y) :
    t.fsr = s.fsr ∧ ∀ b, t.ram.read b = if a = b then y else s.ram.read b := by
  obtain ⟨fsr, _, _, ram⟩ := h
  simp only [Option.some.injEq, FileReg.storage.injEq] at ram
  exact ⟨fsr, ram⟩

theorem FileHolds.of_port {p : Port} (h : FileHolds s t (some (.port p)) y) (q : Port) :
    t.lat.get q = if p = q then y &&& p.mask else s.lat.get q := by
  obtain ⟨_, _, lat, _⟩ := h
  rw [lat q]
  by_cases same : p = q
  · rw [same, if_pos rfl, if_pos rfl]
  · rw [if_neg same, if_neg (by simpa using same)]

/-- A port file is the bytes of its ports. -/
theorem PortFile.ext_get {x x' : PortFile} (h : ∀ p, x.get p = x'.get p) : x = x' := by
  obtain ⟨⟩ := x
  obtain ⟨⟩ := x'
  exact PortFile.mk.injEq .. ▸ ⟨h .a, h .b, h .c, h .d, h .e⟩

/-- A write to PCL stores nothing in the file (R58). -/
theorem FileHolds.of_pcl (h : FileHolds s t (some .pcl) y) : SameFile s t :=
  let ⟨fsr, tmr0, lat, ram⟩ := h
  ⟨fsr, tmr0, PortFile.ext_get lat, ram⟩

end

/-! ### Storage bytes -/

/-- MOVWF leaves the variant and, on a storage byte, FSR and every other storage byte (R38, R120). -/
theorem movwf_storage {s : State} {f : FileAddr} {a : Nat} (h : s.sel f = .storage a) :
    ∃ t, exec (.movwf f) s = .next t ∧ t.variant = s.variant ∧ t.fsr = s.fsr
      ∧ ∀ b, t.ram.read b = if a = b then s.w else s.ram.read b := by
  obtain ⟨_, file, _, _, ⟨variant, _⟩, _⟩ := s.commitFile_leaves (s.sel f) s.w .keep
  have dest : some (s.sel f) = some (.storage a) := congrArg some h
  rw [dest] at file
  obtain ⟨fsr, ram⟩ := file.of_storage
  exact ⟨_, rfl, variant, fsr, ram⟩

/-- Settles O27: the store leaves FSR, so both operands select the one byte, and it holds what W held. -/
theorem storageReturnsWhatWasStored : Obligations.StorageReturnsWhatWasStored := by
  intro s f a x hsel
  obtain ⟨t, run, variant, fsr, ram⟩ := movwf_storage hsel
  have hsel' : ({ t with w := x } : State).sel f = .storage a := (State.sel_congr variant fsr f).trans hsel
  obtain ⟨loaded, _⟩ := ({ t with w := x } : State).fileOp_leaves f .w (fun y => withZ y)
  refine ⟨t, _, run, rfl, ?_⟩
  calc _ = ({ t with w := x } : State).fileValue f := loaded
    _ = t.ram.read a := State.fileValue_of_sel hsel'
    _ = s.w := (ram a).trans (if_pos rfl)

/-- Settles O28: bank and offset are the quotient and the remainder by 32 of the data address, so another bank or another
offset is another storage byte. -/
theorem banksDoNotOverlap : Obligations.BanksDoNotOverlap := by
  intro s t f g fsr' hf hg run differ
  obtain ⟨t', run', variant, _, ram⟩ := movwf_storage (s.sel_banked hf)
  obtain rfl : t' = t := Host.Outcome.next.inj (run'.symm.trans run)
  have ht := ({ t' with fsr := fsr' } : State).sel_banked hg
  have hs := ({ s with fsr := fsr' } : State).sel_banked hg
  rw [State.fileValue_of_sel ht, State.fileValue_of_sel hs]
  change t'.ram.read (32 * (fsr'.toNat % 2 ^ t'.variant.fsrBits / 32) + g.toNat) = s.ram.read _
  rw [variant, ram, if_neg]
  intro same
  have := f.isLt
  have := g.isLt
  rcases differ with bank | offset
  · exact bank (by omega)
  · exact offset (BitVec.eq_of_toNat_eq (by omega))

/-! ### Port latches -/

/-- Settles O55: BSF stores the answer of the environment with bit `b` set in the latch of the port it reads. -/
theorem bsfOnPortReplacesTheLatchByThePins : Obligations.BsfOnPortReplacesTheLatchByThePins := by
  intro s f p b hsel
  obtain ⟨_, file, _⟩ := s.fileOp_leaves f .f (fun x => withNone (x ||| bitMask b))
  have dest : destReg .f (s.sel f) = some (.port p) := congrArg some hsel
  have pins : s.fileValue f = s.answers.headD (Config.pinRead p s.draws) &&& p.mask := by
    rw [State.fileValue_of_sel hsel, ← State.draw_fst]; rfl
  rw [dest, pins] at file
  refine ⟨_, rfl, fun i => ?_, fun q other => ?_⟩
  · rw [file.of_port p, if_pos rfl]
    simp only [withNone, BitVec.getLsbD_and, BitVec.getLsbD_or, bitMask_getLsbD]
    cases p.mask.getLsbD i <;> simp
  · rw [file.of_port q, if_neg other.symm]

end Sys2Proof.Machine

/-! Instructions whose operand is PCL or STATUS, and the return from a call (spec/10_state.md R22, R23, R29,
spec/47_jumps_system.md R133, R134). -/

namespace Sys2Proof.Machine

/-! ### PCL -/

/-- A result written to PCL is the low byte of the next address, in the page of the state before (R23). -/
theorem State.commitFile_pcl_pc (s : State) (y : Byte) (u : FlagUpdate) :
    (s.commitFile .pcl y u).pc = s.lowTarget y := rfl

/-- A store to PCL enters the low half of a page (R64, R180). -/
theorem State.commitFile_pcl_bit8 {s t : State} {r : FileReg} {y : Byte} {u : FlagUpdate} (hr : r = .pcl)
    (run : (.next (s.commitFile r y u) : Host.Outcome State Fault Refusal) = .next t) : t.pc.getLsbD 8 = false := by
  rw [← Host.Outcome.next.inj run, hr, State.commitFile_pcl_pc, State.lowTarget_bit8]

/-- So does a read-modify-write of PCL. -/
theorem State.fileOp_pcl_bit8 {s t : State} {f : FileAddr} {g : Byte → Byte × FlagUpdate} (hsel : s.sel f = .pcl)
    (run : (.next (s.fileOp f .f g) : Host.Outcome State Fault Refusal) = .next t) : t.pc.getLsbD 8 = false :=
  State.commitFile_pcl_bit8 hsel run

/-- Settles O23: a CALL, a store and a read-modify-write each form the next address by `State.lowTarget`. -/
theorem callAndComputedJumpTargetsHaveBit8Clear : Obligations.CallAndComputedJumpTargetsHaveBit8Clear := by
  refine ⟨fun s t k run => ?_, fun s t f hsel => ⟨fun b run => ?_, fun run => ?_⟩⟩
  · rcases exec_call_cases k s with ⟨_, e⟩ | ⟨_, e⟩
    · exact absurd (e.symm.trans run) nofun
    · rw [← Host.Outcome.next.inj (e.symm.trans run)]
      exact s.lowTarget_bit8 k
  · exact run.elim (State.fileOp_pcl_bit8 hsel) (State.fileOp_pcl_bit8 hsel)
  · rcases run with run | run | run | run | run | run | run | run | run | run | run | run | run | run
    · exact State.commitFile_pcl_bit8 hsel run
    · exact State.commitFile_pcl_bit8 hsel run
    all_goals exact State.fileOp_pcl_bit8 hsel run

/-- Settles O54: the operand reads as the low byte of `pc + 1`, and the sum goes to PCL as a byte. -/
theorem addwfToPclIsTheComputedJump : Obligations.AddwfToPclIsTheComputedJump := by
  intro s
  have left := s.fileOp_leaves 2 .f (fun x => addFlags x s.w)
  have dest : destReg .f (s.sel 2) = some .pcl := congrArg some s.sel_pcl
  have operand : (s.fileValue 2).toNat = nextAddr s 1 % 256 := by
    rw [State.fileValue_of_sel s.sel_pcl]
    change ((s.pcPlus 1).extractLsb' 0 8).toNat = _
    rw [BitVec.extractLsb'_toNat, State.pcPlus_toNat, Nat.shiftRight_zero]; rfl
  rw [dest, addFlags_eq] at left
  obtain ⟨w, file, _, pc, _, stack, _⟩ := left
  rw [if_pos rfl, BitVec.toNat_ofNat, operand] at pc
  exact ⟨_, rfl, pc, w, file.of_pcl, stack⟩

/-! ### CALL and RETLW -/

/-- Settles O51: the entry that CALL pushes is the one RETLW pops, and the caller's entry is under it. -/
theorem retlwReturnsBehindTheCall : Obligations.RetlwReturnsBehindTheCall := by
  intro s t u k k' run ⟨top, below, count⟩
  rcases exec_call_cases k s with ⟨_, e⟩ | ⟨_, e⟩
  · exact absurd (e.symm.trans run) nofun
  rw [← Host.Outcome.next.inj (e.symm.trans run)] at top below count
  rcases exec_retlw_cases k' u with ⟨empty, _⟩ | ⟨_, e'⟩
  · exact absurd (count.symm.trans empty) (Nat.succ_ne_zero _)
  · refine ⟨_, e', ?_, rfl, below, ?_, rfl⟩
    · exact (congrArg BitVec.toNat top).trans (s.pcPlus_toNat 1)
    · exact congrArg (· - 1) count

/-! ### STATUS -/

/-- A result written to STATUS, and then the flags (R29, R90). -/
theorem State.commitFile_status (s : State) (y : Byte) (u : FlagUpdate) :
    (s.commitFile .status y u).status = u.apply (statusWrite s.status y (!u.isNone)) := rfl

/-- A read-modify-write of STATUS that writes no flag. -/
theorem State.fileOp_status_withNone (s : State) (g : Byte → Byte) :
    (s.fileOp 3 .f (fun x => withNone (g x))).status = statusWrite s.status (g s.status) false := by
  unfold State.fileOp
  rw [s.sel_status]
  exact s.commitFile_status _ .keep

/-- A read-modify-write of STATUS that writes all three flags: bits 7..5 from the result, the flags by their rule. -/
theorem State.fileOp_status_allFlags {s : State} {g : Byte → Byte × FlagUpdate} {y : Byte} {c dc z : Bool}
    (hg : g s.status = (y, ⟨some c, some dc, some z⟩)) {t : State} (ht : s.fileOp 3 .f g = t) :
    t.status.extractLsb' 5 3 = y.extractLsb' 5 3
      ∧ t.status.getLsbD 4 = s.status.getLsbD 4 ∧ t.status.getLsbD 3 = s.status.getLsbD 3
      ∧ t.status.getLsbD 2 = z ∧ t.status.getLsbD 1 = dc ∧ t.status.getLsbD 0 = c := by
  obtain ⟨_, _, ⟨upper, nTO, nPD, flagZ, flagDC, flagC⟩, _⟩ := s.fileOp_leaves 3 .f g
  have dest : destReg .f (s.sel 3) = some .status := congrArg some s.sel_status
  have operand : s.fileValue 3 = s.status := State.fileValue_of_sel s.sel_status
  rw [dest, if_pos rfl, operand, hg] at upper
  rw [operand, hg] at flagZ flagDC flagC
  exact ht ▸ ⟨upper, nTO, nPD, flagZ, flagDC, flagC⟩

/-- STATUS written with its own value but for bit `b`, and no flag: /TO and /PD stay (R29). -/
theorem statusWrite_changed_bit {st y : Byte} {b : BitIndex}
    (h : ∀ j < 8, j ≠ b.toNat → y.getLsbD j = st.getLsbD j) :
    statusWrite st y false = if b = 3 ∨ b = 4 then st else y := by
  have hb : b = 3 ∨ b = 4 ↔ b.toNat = 3 ∨ b.toNat = 4 := by bv_omega
  apply BitVec.eq_of_getLsbD_eq
  intro j hj
  simp only [statusWrite_getLsbD, and_true]
  by_cases fixed : b.toNat = 3 ∨ b.toNat = 4
  · rw [if_pos (hb.mpr fixed)]
    split_ifs with data
    · exact h j hj (by omega)
    · rfl
  · rw [if_neg (hb.not.mpr fixed)]
    split_ifs with data
    · rfl
    · exact (h j hj (by omega)).symm

/-- CLRF on STATUS: the upper bits cleared, Z set, the others as before (R29, R116). -/
theorem statusWrite_clear (st : Byte) :
    (FlagUpdate.zero 0).apply (statusWrite st 0 true) = (st &&& 0x1B) ||| 0x04 := by
  apply BitVec.eq_of_getLsbD_eq
  intro j hj
  simp only [FlagUpdate.apply_getLsbD, statusWrite_getLsbD, FlagUpdate.zero]
  interval_cases j <;> simp

/-- Settles O30: each write to STATUS by the lemma above for the flags its instruction writes. -/
theorem statusWritesKeepToAndPd : Obligations.StatusWritesKeepToAndPd := by
  refine ⟨fun s => ⟨_, rfl, ?_⟩, fun s => ⟨_, rfl, ?_⟩, fun s b => ⟨_, rfl, ?_⟩, fun s b => ⟨_, rfl, ?_⟩,
    fun s => ⟨_, rfl, ?_⟩, fun s => ⟨_, rfl, ?_⟩⟩
  · rw [s.sel_status]
    exact s.commitFile_status s.w .keep
  · rw [s.sel_status, s.commitFile_status]
    exact statusWrite_clear s.status
  · rw [s.fileOp_status_withNone (fun x => x ||| bitMask b)]
    exact statusWrite_changed_bit fun j _ other => by simp [bitMask_getLsbD, other]
  · rw [s.fileOp_status_withNone (fun x => x &&& ~~~bitMask b)]
    exact statusWrite_changed_bit fun j hj other => by
      simp only [BitVec.getLsbD_and, BitVec.getLsbD_not, bitMask_getLsbD, other, hj]
      simp
  · exact State.fileOp_status_allFlags (addFlags_eq s.status s.w) rfl
  · exact State.fileOp_status_allFlags (subFlags_eq s.status s.w) rfl

end Sys2Proof.Machine

/-! What steps and reads leave unchanged, and what each file operand selects and reads (spec/20_memory.md R51, R54 to R57,
R59, R61, R69). -/

namespace Sys2Proof.Machine

/-! ### The arguments of the model -/

section
variable {s t u : State}

theorem SameArguments.trans (h : SameArguments s t) (h' : SameArguments t u) : SameArguments s u :=
  let ⟨variant, wdtEnabled, prog⟩ := h
  let ⟨variant', wdtEnabled', prog'⟩ := h'
  ⟨variant'.trans variant, wdtEnabled'.trans wdtEnabled, prog'.trans prog⟩

theorem Leaves.sameArguments {r : Option FileReg} {y : Byte} {c dc z : Option Bool} {n : Nat}
    (h : Leaves s t r y c dc z n) : SameArguments s t :=
  let ⟨arguments, _⟩ := h.untouched
  arguments

theorem State.passBoundary_sameArguments (s : State) : SameArguments s s.passBoundary :=
  ⟨s.passBoundary_variant, s.passBoundary_wdtEnabled, s.passBoundary_prog⟩

theorem State.takeReset_sameArguments (s : State) (c : ResetCause) (cs : List ResetCause) :
    SameArguments s (s.takeReset c cs) := ⟨rfl, rfl, rfl⟩

/-- No instruction writes program memory or another argument of the model (R51, R69). -/
theorem exec_sameArguments {i : Instr} (run : exec i s = .next t) : SameArguments s t := by
  rcases exec_leaves_cases run with ⟨_, _, _, _, _, _, left⟩ | ⟨_, rfl⟩ | ⟨_, _, _, rfl⟩ | ⟨rfl | rfl, _⟩ | ⟨_, rfl⟩
    | ⟨_, _, _, _, _, _, rfl⟩
  · exact left.sameArguments
  · exact ⟨rfl, rfl, rfl⟩
  · exact ⟨rfl, rfl, rfl⟩
  · exact Host.Outcome.next.inj run ▸ ⟨rfl, rfl, rfl⟩
  · exact Host.Outcome.next.inj run ▸ ⟨rfl, rfl, rfl⟩
  · exact ⟨rfl, rfl, rfl⟩
  · exact ⟨rfl, rfl, rfl⟩

end

/-- Settles O17: a step is a reset, an idle step asleep, or an instruction, and each keeps the arguments. -/
theorem noStepChangesProgramMemory : Obligations.NoStepChangesProgramMemory := by
  intro s t run
  rcases step_cases run with ⟨c, cs, _, rfl⟩ | ⟨_, _, rfl⟩ | ⟨_, _, i, _, run⟩
  · exact s.takeReset_sameArguments c cs
  · exact s.passBoundary_sameArguments
  · exact s.passBoundary_sameArguments.trans (exec_sameArguments run)

/-! ### Selection by any operand -/

/-- Bit 4 of a data address, in natural numbers: `n` is its offset in the bank `b`. -/
theorem getLsbD_four_of_offset {a : Byte} {b n : Nat} (addr : a.toNat = 32 * b + n) (lt : n < 32) :
    a.getLsbD 4 = decide (16 ≤ n) := by
  rw [BitVec.getLsbD, Nat.testBit_eq_decide_div_mod_eq, addr, decide_eq_decide]
  omega

/-- The offsets 10..1F of a bank are its own storage bytes (R55). -/
theorem selectReg_banked {v : Variant} {a : Byte} {b n : Nat} (addr : a.toNat = 32 * b + n) (lt : n < 32)
    (banked : 16 ≤ n) : selectReg v a = .storage (32 * b + n) := by
  rw [selectReg, getLsbD_four_of_offset addr lt, if_pos (decide_eq_true banked), addr]

/-- The offsets 00..0F of every bank are the rows of R54 (R55). -/
theorem selectReg_common {v : Variant} {a : Byte} {b n : Nat} (addr : a.toNat = 32 * b + n) (common : n < 16) :
    selectReg v a = commonReg v (BitVec.ofNat 4 n) := by
  have row : a.extractLsb' 0 4 = BitVec.ofNat 4 n := by
    apply BitVec.eq_of_toNat_eq
    rw [BitVec.extractLsb'_toNat, BitVec.toNat_ofNat, Nat.shiftRight_zero, addr]
    omega
  rw [selectReg, getLsbD_four_of_offset addr (by omega), if_neg (by simpa using common), row]

/-- The row of a port that the variant has (R54). -/
theorem commonReg_port {v : Variant} {p : Port} (has : v.hasPort p = true) :
    commonReg v (BitVec.ofNat 4 p.fileAddr) = .port p := by
  cases p with
  | a => rfl
  | b => rfl
  | c => exact if_pos has
  | d => exact if_pos has
  | e => exact if_pos has

/-- The rows behind the last port are common storage bytes (R54). -/
theorem commonReg_storage {v : Variant} {n : Nat} (behind : v.lastPort < n) (lt : n < 16) :
    commonReg v (BitVec.ofNat 4 n) = .storage n := by
  cases v <;> simp only [Variant.lastPort] at behind <;> interval_cases n <;> rfl

/-- The effective address: the bank in the upper bits of FSR, and the operand, or the lower bits of FSR, as offset (R56). -/
theorem State.ea_toNat (s : State) (f : FileAddr) :
    (s.ea f).toNat = 32 * (s.fsr.toNat % 2 ^ s.variant.fsrBits / 32)
      + if f = 0 then s.fsr.toNat % 2 ^ s.variant.fsrBits % 32 else f.toNat := by
  by_cases indirect : f = 0
  · rw [State.ea, if_pos indirect, if_pos indirect, and_fsrMask_toNat, Nat.div_add_mod]
  · rw [if_neg indirect, s.ea_direct_toNat indirect]

/-- Settles O24: bank and offset of the effective address give the selection, and the rows of R54 the register. -/
theorem fileOperandSelection : Obligations.FileOperandSelection := by
  intro s f fsr n
  have addr : (s.ea f).toNat = 32 * (fsr / 32) + n := s.ea_toNat f
  have lt : n < 32 := by
    have := f.isLt
    change (if f = 0 then fsr % 32 else f.toNat) < 32
    split_ifs <;> omega
  clear_value n
  have common (h : n < 16) : s.sel f = commonReg s.variant (BitVec.ofNat 4 n) := selectReg_common addr h
  have port (p : Port) (h : n = p.fileAddr) (has : s.variant.hasPort p = true) : s.sel f = .port p := by
    subst h
    exact (common (by cases p <;> decide)).trans (commonReg_port has)
  have storage (behind : s.variant.lastPort < n) (h : n < 16) : s.sel f = .storage n :=
    (common h).trans (commonReg_storage behind h)
  refine ⟨?_, ?_, ?_, ?_, ?_, port, storage, selectReg_banked addr lt⟩
  all_goals
    rintro rfl
    exact common (by decide)

/-! ### Reads -/

/-- Settles O26: of all reads only those of TMR0 and a port draw an answer, and a draw uses up one. -/
theorem readsHaveNoEffectOnTheMachine : Obligations.ReadsHaveNoEffectOnTheMachine := by
  intro s r t
  refine ⟨?_, s.readReg_snd_of_ne r, ?_⟩
  · obtain ⟨as, n, e⟩ : ∃ as n, t = { s with answers := as, draws := n } := s.readReg_snd r
    rw [e]
  · rintro (rfl | ⟨p, rfl⟩)
    · exact s.draw_inputs _
    · exact s.draw_inputs _

/-- PCL reads as the low byte of the next address (R23). -/
theorem State.readReg_pcl_toNat (s : State) : (s.readReg .pcl).1.toNat = nextAddr s 1 % 256 := by
  change ((s.pcPlus 1).extractLsb' 0 8).toNat = _
  rw [BitVec.extractLsb'_toNat, State.pcPlus_toNat, Nat.shiftRight_zero]; rfl

theorem fsrMask_getLsbD (v : Variant) {i : Nat} (hi : i < 8) : v.fsrMask.getLsbD i = decide (i < v.fsrBits) := by
  rw [Variant.fsrMask, BitVec.getLsbD_ofNat, Nat.testBit_two_pow_sub_one, decide_eq_true hi, Bool.true_and]

/-- FSR reads with ones in its unimplemented bits (R30). -/
theorem State.readReg_fsr_getLsbD (s : State) {i : Nat} (hi : i < 8) :
    (s.readReg .fsr).1.getLsbD i = if i < s.variant.fsrBits then s.fsr.getLsbD i else true := by
  change (s.fsr ||| ~~~s.variant.fsrMask).getLsbD i = _
  rw [BitVec.getLsbD_or, BitVec.getLsbD_not, fsrMask_getLsbD _ hi, decide_eq_true hi]
  by_cases implemented : i < s.variant.fsrBits <;> simp [implemented]

/-- A port reads as the implemented bits of the environment's answer (R36). -/
theorem State.readReg_port (s : State) (p : Port) :
    (s.readReg (.port p)).1 = s.answers.headD (Config.pinRead p s.draws) &&& p.mask :=
  congrArg (· &&& p.mask) (s.draw_fst _)

/-- MOVF f,0 loads the value of its operand, and sets Z when that is 0 (R121). -/
theorem movf_w_loads_fileValue (s : State) (f : FileAddr) :
    ∃ t, exec (.movf f .w) s = .next t ∧ t.w = s.fileValue f
      ∧ t.status.getLsbD 2 = decide (s.fileValue f = 0) :=
  let ⟨w, _, ⟨_, _, _, z, _⟩, _⟩ := s.fileOp_leaves f .w (fun x => withZ x)
  ⟨_, rfl, w, z⟩

/-- Settles O25: W is the value of the operand, and that is the value of the register it selects. -/
theorem movfLoadsWhatTheSelectedRegisterReads : Obligations.MovfLoadsWhatTheSelectedRegisterReads := by
  intro s f
  obtain ⟨t, run, loaded, _⟩ := movf_w_loads_fileValue s f
  have w {r : FileReg} (hsel : s.sel f = r) : t.w = (s.readReg r).1 := loaded.trans (State.fileValue_of_sel hsel)
  refine ⟨t, run, w, fun h => ?_, fun h => ?_, w, fun h i hi => ?_, fun p h i => ?_, fun a => w⟩
  · exact (w h).trans (s.draw_fst _)
  · rw [w h, s.readReg_pcl_toNat]
  · rw [w h, s.readReg_fsr_getLsbD hi]
  · rw [w h, s.readReg_port, BitVec.getLsbD_and, Bool.and_comm]

/-! ### INDF through itself -/

/-- INDF selects itself when the lower bits of FSR are zero, in every bank (R59). -/
theorem State.sel_indf {s : State} (zero : s.fsr.toNat % 32 = 0) : s.sel 0 = .indf := by
  have dvd : 32 ∣ 2 ^ s.variant.fsrBits := by cases s.variant <;> decide
  obtain ⟨indf, _⟩ := fileOperandSelection s 0
  exact indf ((if_pos rfl).trans ((Nat.mod_mod_of_dvd _ dvd).trans zero))

/-- A result written to INDF through itself is lost; the flags and the advance remain (R59). -/
theorem State.commitFile_indf (s : State) (y : Byte) (u : FlagUpdate) :
    s.commitFile .indf y u = (s.setFlags u).advance := rfl

/-- A read-modify-write of INDF through itself computes on 0 and leaves the flags of that result alone (R59). -/
theorem State.fileOp_indf {s : State} {f : FileAddr} (h : s.sel f = .indf) (g : Byte → Byte × FlagUpdate) :
    s.fileOp f .f g = (s.setFlags (g 0).2).advance := by
  rw [State.fileOp, h]; rfl

/-- Settles O29: the operand reads 0, and what is stored to it is lost. -/
theorem indfThroughItselfReadsZeroAndStoresNothing : Obligations.IndfThroughItselfReadsZeroAndStoresNothing := by
  intro s zero
  have hsel := State.sel_indf zero
  have operand : s.fileValue 0 = 0 := State.fileValue_of_sel hsel
  refine ⟨?_, ⟨_, rfl, ?_⟩, ⟨_, rfl, ?_⟩⟩
  · obtain ⟨t, run, w, z⟩ := movf_w_loads_fileValue s 0
    rw [operand] at w z
    exact ⟨t, run, w, z⟩
  · rw [hsel, s.commitFile_indf]
    exact ⟨⟨rfl, rfl, rfl, fun _ => rfl⟩, rfl, s.pcPlus_toNat 1⟩
  · rw [State.fileOp_indf hsel]
    exact ⟨⟨rfl, rfl, rfl, fun _ => rfl⟩, rfl, FlagUpdate.apply_getLsbD _ s.status 2⟩

end Sys2Proof.Machine

/-! The encoding (spec/30_encoding.md): the decoder accepts exactly the words that are the encoding of an instruction of
the variant, and both directions are the identity (R77, R81); the words it rejects are those of R78. -/

namespace Sys2Proof

/-! ### Fields of a word -/

/-- A field of a word as a number. -/
theorem field_eq_iff (w : InstrWord) (start len : Nat) (x : BitVec len) :
    w.extractLsb' start len = x ↔ w.toNat / 2 ^ start % 2 ^ len = x.toNat := by
  rw [← BitVec.toNat_inj, BitVec.extractLsb'_toNat, Nat.shiftRight_eq_div_pow]

/-- Two adjacent fields side by side are one field, so a word with a known upper field is that field and the rest. -/
theorem append_field {w : InstrWord} {start len len' : Nat} {op : BitVec len'}
    (h : w.extractLsb' (start + len) len' = op) :
    op ++ w.extractLsb' start len = w.extractLsb' start (len' + len) := by
  rw [← h]
  exact BitVec.extractLsb'_append_extractLsb'_eq_extractLsb' rfl

/-- The bit `d` of a destination gives the destination back (R71). -/
theorem Dest.ofBit_bit (d : Dest) : Dest.ofBit (d.bit.getLsbD 0) = d := by cases d <;> rfl

/-- The destination of a bit gives the bit back (R71). -/
theorem Dest.bit_ofBit (b : Bool) : (Dest.ofBit b).bit = BitVec.ofBool b := by cases b <;> rfl

/-! ### The fields of an encoded instruction -/

/-- Format F of R72: a 7-bit opcode and `f`. -/
def encodeFile (op : BitVec 7) (f : FileAddr) : InstrWord := op ++ f

theorem encode_movwf (f : FileAddr) : encode (.movwf f) = encodeFile 0b0000001#7 f := rfl
theorem encode_clrf (f : FileAddr) : encode (.clrf f) = encodeFile 0b0000011#7 f := rfl

/-- Format G of R72: a 3-bit opcode and `k`. -/
def encodeGoto (op : BitVec 3) (k : BitVec 9) : InstrWord := op ++ k

theorem encode_goto (k : BitVec 9) : encode (.goto k) = encodeGoto 0b101#3 k := rfl

section
variable (op3 : BitVec 3) (op7 : BitVec 7) (k9 : BitVec 9) (op4 : BitVec 4) (op6 : BitVec 6) (f : FileAddr)
  (d : Dest) (b : BitIndex) (k : Byte)

@[simp] theorem encodeLiteral_high (start len : Nat) (h : 8 ≤ start) :
    (encodeLiteral op4 k).extractLsb' start len = op4.extractLsb' (start - 8) len :=
  BitVec.extractLsb'_append_eq_of_le h

@[simp] theorem encodeLiteral_k : (encodeLiteral op4 k).extractLsb' 0 8 = k := BitVec.extractLsb'_append_eq_right

@[simp] theorem encodeGoto_high (start len : Nat) (h : 9 ≤ start) :
    (encodeGoto op3 k9).extractLsb' start len = op3.extractLsb' (start - 9) len := BitVec.extractLsb'_append_eq_of_le h

@[simp] theorem encodeGoto_k : (encodeGoto op3 k9).extractLsb' 0 9 = k9 := BitVec.extractLsb'_append_eq_right

@[simp] theorem encodeFile_high (start len : Nat) (h : 5 ≤ start) :
    (encodeFile op7 f).extractLsb' start len = op7.extractLsb' (start - 5) len := BitVec.extractLsb'_append_eq_of_le h

@[simp] theorem encodeFile_f : (encodeFile op7 f).extractLsb' 0 5 = f := BitVec.extractLsb'_append_eq_right

@[simp] theorem encodeFileBit_high (start len : Nat) (h : 8 ≤ start) :
    (encodeFileBit op4 f b).extractLsb' start len = op4.extractLsb' (start - 8) len := by
  rw [encodeFileBit, BitVec.extractLsb'_append_eq_of_le (by omega), BitVec.extractLsb'_append_eq_of_le (by omega),
    Nat.sub_sub]

@[simp] theorem encodeFileBit_f : (encodeFileBit op4 f b).extractLsb' 0 5 = f := BitVec.extractLsb'_append_eq_right

@[simp] theorem encodeFileBit_b : (encodeFileBit op4 f b).extractLsb' 5 3 = b := by
  rw [encodeFileBit, BitVec.extractLsb'_append_eq_of_le (by omega)]
  exact BitVec.extractLsb'_append_eq_right

@[simp] theorem encodeFileDest_high (start len : Nat) (h : 6 ≤ start) :
    (encodeFileDest op6 f d).extractLsb' start len = op6.extractLsb' (start - 6) len := by
  rw [encodeFileDest, BitVec.extractLsb'_append_eq_of_le (by omega), BitVec.extractLsb'_append_eq_of_le (by omega),
    Nat.sub_sub]

@[simp] theorem encodeFileDest_f : (encodeFileDest op6 f d).extractLsb' 0 5 = f := BitVec.extractLsb'_append_eq_right

@[simp] theorem encodeFileDest_d : Dest.ofBit (encodeFileDest op6 f d)[5] = d := by
  have bit : (encodeFileDest op6 f d)[5] = d.bit.getLsbD 0 := by
    rw [← BitVec.getLsbD_eq_getElem, encodeFileDest, BitVec.getLsbD_append, if_neg (by omega),
      BitVec.getLsbD_append, if_pos (by omega)]
  rw [bit, d.ofBit_bit]

end

/-- The word is the encoding of the instruction, and the variant has the instruction. -/
def SpelledBy (v : Variant) (w : InstrWord) (i : Instr) : Prop := encode i = w ∧ i.wellFormed v = true

/-! ### The words of format O and T, `0000 0000 xxxx` and `0000 010x xxxx` (R76, R77 steps 6 to 9) -/

/-- The instructions without a field, and TRIS: those that one word each spells. -/
def opInstrs : List Instr := [.clrw, .nop, .option, .sleep, .clrwdt, .trisA, .trisB, .trisC, .trisD, .trisE]

/-- The decoder accepts a TRIS word where the variant has the port (R79). -/
theorem decodeTris_eq_ok_iff (v : Variant) (p : Port) (i j : Instr) :
    decodeTris v p i = .ok j ↔ v.hasPort p = true ∧ i = j := by
  cases h : v.hasPort p <;> simp [decodeTris, h]

/-- The answer accepts nothing but an instruction of the list that the word spells. -/
def AcceptsOnlySpelled (v : Variant) (w : InstrWord) (r : Except DecodeError Instr) : Prop :=
  ∀ i, r = .ok i → i ∈ opInstrs ∧ SpelledBy v w i

theorem acceptsOnlySpelled_ok {v : Variant} {w : InstrWord} {i : Instr} (mem : i ∈ opInstrs) (word : encode i = w)
    (wf : i.wellFormed v = true) : AcceptsOnlySpelled v w (.ok i) := by
  rintro j ⟨⟩
  exact ⟨mem, word, wf⟩

theorem acceptsOnlySpelled_decodeTris {v : Variant} {w : InstrWord} {p : Port} {i : Instr} (mem : i ∈ opInstrs)
    (word : encode i = w) (wf : v.hasPort p = true → i.wellFormed v = true) :
    AcceptsOnlySpelled v w (decodeTris v p i) := by
  intro j h
  obtain ⟨port, rfl⟩ := (decodeTris_eq_ok_iff v p i j).mp h
  exact ⟨mem, word, wf port⟩

/-- Each test of these steps names one word, and the answer is the instruction of that word. -/
theorem decodeOp_acceptsOnlySpelled (v : Variant) (w : InstrWord) : AcceptsOnlySpelled v w (decodeOp v w) := by
  unfold decodeOp
  iterate 5
    refine iteInduction (motive := AcceptsOnlySpelled v w)
      (fun word => acceptsOnlySpelled_ok (by simp [opInstrs]) word.symm rfl) fun _ => ?_
  iterate 5
    refine iteInduction (motive := AcceptsOnlySpelled v w)
      (fun word => acceptsOnlySpelled_decodeTris (by simp [opInstrs]) word.symm id) fun _ => ?_
  exact nofun

/-- The last steps of the decoder accept exactly the words of these instructions that the variant has. -/
theorem decodeOp_eq_ok_iff (v : Variant) (w : InstrWord) (i : Instr) :
    decodeOp v w = .ok i ↔ i ∈ opInstrs ∧ SpelledBy v w i := by
  refine ⟨decodeOp_acceptsOnlySpelled v w i, ?_⟩
  rintro ⟨mem, rfl, wf⟩
  simp only [opInstrs, List.mem_cons, List.not_mem_nil, or_false] at mem
  rcases mem with rfl | rfl | rfl | rfl | rfl | rfl | rfl | rfl | rfl | rfl
  iterate 5 · rfl
  iterate 5 · exact if_pos wf

/-- The ports of the variants (R7, R35): C is missing on V54, D and E are on V59 only. -/
theorem hasPort_iff (v : Variant) (p : Port) :
    v.hasPort p = true ↔ match p with
      | .a | .b => True
      | .c => v ≠ .v54
      | .d | .e => v = .v59 := by
  cases v <;> cases p <;> decide

/-- The words that spell one of these instructions on the variant (R76, R79). -/
theorem exists_opInstr_spelledBy_iff (v : Variant) (w : InstrWord) :
    (∃ i ∈ opInstrs, SpelledBy v w i) ↔
      w.toNat = 0x040 ∨ w.toNat = 0x000 ∨ (0x002 ≤ w.toNat ∧ w.toNat ≤ 0x006) ∨ (w.toNat = 0x007 ∧ v ≠ .v54)
        ∨ ((w.toNat = 0x008 ∨ w.toNat = 0x009) ∧ v = .v59) := by
  simp only [opInstrs, List.mem_cons, List.not_mem_nil, or_false, exists_eq_or_imp, exists_eq_left, SpelledBy, encode,
    ← BitVec.toNat_inj, BitVec.toNat_ofNat, Instr.wellFormed, Instr.trisPort, hasPort_iff]
  grind

/-! ### The word of what the decoder gives -/

/-- Format K and C: a word is its opcode and `k`. -/
theorem encodeLiteral_fields {w : InstrWord} {op : BitVec 4} (h : w.extractLsb' 8 4 = op) :
    encodeLiteral op (w.extractLsb' 0 8) = w :=
  (append_field h).trans BitVec.extractLsb'_eq_self

/-- Format F: a word is its opcode and `f`. -/
theorem encodeFile_fields {w : InstrWord} {op : BitVec 7} (h : w.extractLsb' 5 7 = op) :
    encodeFile op (w.extractLsb' 0 5) = w :=
  (append_field h).trans BitVec.extractLsb'_eq_self

/-- Format G: a word is its opcode and `k`. -/
theorem encodeGoto_fields {w : InstrWord} {op : BitVec 3} (h : w.extractLsb' 9 3 = op) :
    encodeGoto op (w.extractLsb' 0 9) = w :=
  (append_field h).trans BitVec.extractLsb'_eq_self

/-- Format B: a word is its opcode, `b` and `f`. -/
theorem encodeFileBit_fields {w : InstrWord} {op : BitVec 4} (h : w.extractLsb' 8 4 = op) :
    encodeFileBit op (w.extractLsb' 0 5) (w.extractLsb' 5 3) = w := by
  have high : op ++ w.extractLsb' 5 3 = w.extractLsb' 5 7 := append_field (start := 5) (len := 3) h
  rw [encodeFileBit, high]
  exact (append_field (start := 0) (len := 5) rfl).trans BitVec.extractLsb'_eq_self

/-- Format FD: a word is its opcode, `d` and `f`. -/
theorem encodeFileDest_fields {w : InstrWord} {op : BitVec 6} (h : w.extractLsb' 6 6 = op) :
    encodeFileDest op (w.extractLsb' 0 5) (Dest.ofBit (w.getLsbD 5)) = w := by
  have d : BitVec.ofBool (w.getLsbD 5) = w.extractLsb' 5 1 := by
    ext i hi
    obtain rfl : i = 0 := by omega
    simp
  have high : op ++ w.extractLsb' 5 1 = w.extractLsb' 5 7 := append_field (start := 5) (len := 1) h
  rw [encodeFileDest, Dest.bit_ofBit, d, high]
  exact (append_field (start := 0) (len := 5) rfl).trans BitVec.extractLsb'_eq_self

/-- Step (1) of R77 reads every bit of the word. -/
theorem decodeLiteral_spelledBy (v : Variant) {w : InstrWord} (h : w.extractLsb' 11 1 = 1#1) :
    SpelledBy v w (decodeLiteral w) := by
  unfold decodeLiteral
  split_ifs with goto retlw call movlw iorlw andlw
  · exact ⟨encodeGoto_fields goto, rfl⟩
  · exact ⟨encodeLiteral_fields retlw, rfl⟩
  · exact ⟨encodeLiteral_fields call, rfl⟩
  · exact ⟨encodeLiteral_fields movlw, rfl⟩
  · exact ⟨encodeLiteral_fields iorlw, rfl⟩
  · exact ⟨encodeLiteral_fields andlw, rfl⟩
  · have xorlw : w.extractLsb' 8 4 = 0b1111#4 := by
      simp only [field_eq_iff, BitVec.toNat_ofNat] at *
      omega
    exact ⟨encodeLiteral_fields xorlw, rfl⟩

/-- Step (2) of R77 reads every bit of the word. -/
theorem decodeBit_spelledBy (v : Variant) {w : InstrWord} (h : w.extractLsb' 10 2 = 0b01#2) :
    SpelledBy v w (decodeBit w) := by
  have op {x : BitVec 2} (hx : w.extractLsb' 8 2 = x) : w.extractLsb' 8 4 = 0b01#2 ++ x :=
    hx ▸ (append_field (start := 8) (len := 2) h).symm
  unfold decodeBit
  split_ifs with bcf bsf btfsc
  · exact ⟨encodeFileBit_fields (op bcf), rfl⟩
  · exact ⟨encodeFileBit_fields (op bsf), rfl⟩
  · exact ⟨encodeFileBit_fields (op btfsc), rfl⟩
  · have btfss : w.extractLsb' 8 2 = 0b11#2 := by
      simp only [field_eq_iff, BitVec.toNat_ofNat] at *
      omega
    exact ⟨encodeFileBit_fields (op btfss), rfl⟩

/-- Step (3) of R77 reads every bit of the word: thirteen opcodes are tested, and the fourteenth is the one left. -/
theorem decodeFileDest_spelledBy (v : Variant) {w : InstrWord} (low : 0x080 ≤ w.toNat) (high : w.toNat < 0x400) :
    SpelledBy v w (decodeFileDest w) := by
  unfold decodeFileDest
  iterate 13
    refine iteInduction (motive := SpelledBy v w) (fun op => ⟨encodeFileDest_fields op, rfl⟩) fun _ => ?_
  have incfsz : w.extractLsb' 6 6 = 0b001111#6 := by
    simp only [field_eq_iff, BitVec.toNat_ofNat] at *
    omega
  exact ⟨encodeFileDest_fields incfsz, rfl⟩

/-! ### What the decoder can do -/

/-- The words 0x000..0x01F and 0x040..0x05F, which only the last steps of R77 decode. -/
def IsOpWord (w : InstrWord) : Prop := w.toNat < 0x020 ∨ (0x040 ≤ w.toNat ∧ w.toNat < 0x060)

/-- The words of the list are among them. -/
theorem isOpWord_encode {i : Instr} (h : i ∈ opInstrs) : IsOpWord (encode i) := by
  simp only [opInstrs, List.mem_cons, List.not_mem_nil, or_false] at h
  rcases h with rfl | rfl | rfl | rfl | rfl | rfl | rfl | rfl | rfl | rfl <;> simp [IsOpWord, encode]

/-- On these words the decoder is its last steps. -/
theorem decode_of_isOpWord (v : Variant) {w : InstrWord} (h : IsOpWord w) : decode v w = decodeOp v w := by
  unfold decode
  unfold IsOpWord at h
  split_ifs with literal bit fileDest movwf clrf
  case neg => rfl
  all_goals
    simp only [field_eq_iff, BitVec.toNat_ofNat, ne_eq] at *
    omega

/-- On every other word the decoder gives the instruction whose word it is. -/
theorem decode_of_not_isOpWord (v : Variant) {w : InstrWord} (h : ¬ IsOpWord w) :
    ∃ i, decode v w = .ok i ∧ SpelledBy v w i := by
  unfold decode
  split_ifs with literal bit fileDest movwf clrf
  · exact ⟨_, rfl, decodeLiteral_spelledBy v literal⟩
  · exact ⟨_, rfl, decodeBit_spelledBy v bit⟩
  · obtain ⟨low, high⟩ : 0x080 ≤ w.toNat ∧ w.toNat < 0x400 := by
      simp only [field_eq_iff, BitVec.toNat_ofNat, ne_eq] at *
      omega
    exact ⟨_, rfl, decodeFileDest_spelledBy v low high⟩
  · exact ⟨_, rfl, encodeFile_fields movwf, rfl⟩
  · exact ⟨_, rfl, encodeFile_fields clrf, rfl⟩
  · refine absurd ?_ h
    unfold IsOpWord
    simp only [field_eq_iff, BitVec.toNat_ofNat, ne_eq] at *
    omega

/-! ### The obligations -/

/-- Settles O1, by cases on the instruction: the decoder tests the opcode and reads the fields that the encoder
wrote. -/
theorem decodeOfEncodeIsTheInstruction : Obligations.DecodeOfEncodeIsTheInstruction := by
  intro v i wf
  have ofOp (mem : i ∈ opInstrs) : decode v (encode i) = .ok i :=
    (decode_of_isOpWord v (isOpWord_encode mem)).trans ((decodeOp_eq_ok_iff v _ i).mpr ⟨mem, rfl, wf⟩)
  cases i with
  | nop | option | sleep | clrwdt | clrw | trisA | trisB | trisC | trisD | trisE =>
    exact ofOp (by simp [opInstrs])
  | movwf f => simp [encode_movwf, decode]
  | clrf f => simp [encode_clrf, decode]
  | subwf f d | decf f d | iorwf f d | andwf f d | xorwf f d | addwf f d | movf f d | comf f d | incf f d | decfsz f d
  | rrf f d | rlf f d | swapf f d | incfsz f d => simp [encode, decode, decodeFileDest]
  | bcf f b | bsf f b | btfsc f b | btfss f b => simp [encode, decode, decodeBit]
  | retlw k | call k | movlw k | iorlw k | andlw k | xorlw k => simp [encode, decode, decodeLiteral]
  | goto k => simp [encode_goto, decode, decodeLiteral]

/-- Settles O2: what each step of the decoder gives encodes to the word again. -/
theorem encodeOfDecodeIsTheWord : Obligations.EncodeOfDecodeIsTheWord := by
  intro v w i h
  by_cases op : IsOpWord w
  · exact ((decodeOp_eq_ok_iff v w i).mp ((decode_of_isOpWord v op).symm.trans h)).2
  · obtain ⟨j, decoded, spelled⟩ := decode_of_not_isOpWord v op
    obtain rfl : j = i := Except.ok.inj (decoded.symm.trans h)
    exact spelled

/-- Settles O3: every word outside 0x000..0x01F and 0x040..0x05F is decoded, and of those the decoded ones are the words
of the instructions without a field that the variant has. -/
theorem unassignedWordsAreExactlyTheListedOnes : Obligations.UnassignedWordsAreExactlyTheListedOnes := by
  intro v w
  by_cases op : IsOpWord w
  · have assigned : (∃ i, decode v w = .ok i) ↔ ∃ i ∈ opInstrs, SpelledBy v w i := by
      simp only [decode_of_isOpWord v op, decodeOp_eq_ok_iff]
    rw [← not_exists, assigned, exists_opInstr_spelledBy_iff]
    unfold IsOpWord at op
    grind
  · obtain ⟨i, decoded, _⟩ := decode_of_not_isOpWord v op
    rw [iff_false_left fun none => none i decoded]
    unfold IsOpWord at op
    omega

/-- Settles O4, by running the decoder on each word. -/
theorem sampleWordsDecodeAsTheCodeTreeSays : Obligations.SampleWordsDecodeAsTheCodeTreeSays := by
  exact ⟨rfl, rfl, rfl, rfl, rfl, rfl, rfl, rfl, rfl, rfl⟩

end Sys2Proof

/-! Arithmetic and logic (spec/40_arith_logic.md R91 to R99): the word of each instruction as a number, and the state
that an instruction with a file operand or a literal leaves. -/

namespace Sys2Proof.Machine

/-! ### The word of an instruction as a number (R72) -/

/-- Format FD: the opcode, `d` and `f` side by side. -/
theorem encodeFileDest_toNat (op : BitVec 6) (f : FileAddr) (d : Dest) :
    (encodeFileDest op f d).toNat = 64 * op.toNat + 32 * destNum d + f.toNat := by
  have bit : d.bit.toNat = destNum d := by cases d <;> rfl
  rw [encodeFileDest, BitVec.toNat_append, ← Nat.shiftLeft_add_eq_or_of_lt f.isLt, BitVec.toNat_append,
    ← Nat.shiftLeft_add_eq_or_of_lt d.bit.isLt, bit, Nat.shiftLeft_eq, Nat.shiftLeft_eq]
  omega

/-- Formats K and C: the opcode and `k` side by side. -/
theorem encodeLiteral_toNat (op : BitVec 4) (k : Byte) : (encodeLiteral op k).toNat = 256 * op.toNat + k.toNat := by
  rw [encodeLiteral, BitVec.toNat_append, ← Nat.shiftLeft_add_eq_or_of_lt k.isLt, Nat.shiftLeft_eq]
  omega

/-- An instruction that every variant has is the one its number spells, both ways (R74, R81). -/
theorem isWord_of_encode_toNat {n : Nat} {i : Instr} (number : (encode i).toNat = n)
    (everywhere : ∀ v, i.wellFormed v = true) : IsWord n i := by
  have word : encode i = BitVec.ofNat 12 n := by rw [← number, BitVec.ofNat_toNat, BitVec.setWidth_eq]
  exact ⟨number ▸ (encode i).isLt, word, fun v => word ▸ decodeOfEncodeIsTheInstruction v i (everywhere v)⟩

theorem isWord_fileDest {i : Instr} {op : BitVec 6} {f : FileAddr} {d : Dest} (word : encode i = encodeFileDest op f d)
    (everywhere : ∀ v, i.wellFormed v = true) : IsWord (64 * op.toNat + 32 * destNum d + f.toNat) i :=
  isWord_of_encode_toNat (word ▸ encodeFileDest_toNat op f d) everywhere

theorem isWord_literal {i : Instr} {op : BitVec 4} {k : Byte} (word : encode i = encodeLiteral op k)
    (everywhere : ∀ v, i.wellFormed v = true) : IsWord (256 * op.toNat + k.toNat) i :=
  isWord_of_encode_toNat (word ▸ encodeLiteral_toNat op k) everywhere

/-! ### What the instructions leave (R90) -/

/-- The flag Z as a claim about the number (R26). -/
theorem FlagUpdate.zero_eq (y : Byte) : FlagUpdate.zero y = ⟨none, none, some (decide (y.toNat = 0))⟩ :=
  have zero_iff : y = 0 ↔ y.toNat = 0 := BitVec.toNat_inj.symm
  congrArg (fun z => FlagUpdate.mk none none (some z)) (decide_eq_decide.mpr zero_iff)

section
variable {i : Instr} {s : State} {f : FileAddr} {d : Dest}

/-- An instruction with a file operand leaves what its computation gives on the value of the operand. -/
theorem fileOp_completes {g : Byte → Byte × FlagUpdate} {y : Byte} {c dc z : Option Bool}
    (run : exec i s = .next (s.fileOp f d g)) (result : g (s.fileValue f) = (y, ⟨c, dc, z⟩)) :
    ∃ t, exec i s = .next t ∧ Leaves s t (destReg d (s.sel f)) y c dc z 1 ∧ InputsAfterRead s t f := by
  have left := s.fileOp_leaves f d g
  rw [result] at left
  exact ⟨_, run, left, s.fileOp_inputs f d g⟩

/-- An instruction with a file operand that writes Z alone, its result known bit by bit. -/
theorem fileLogic_completes {g : Byte → Byte} {bit : Nat → Bool}
    (run : exec i s = .next (s.fileOp f d (fun x => withZ (g x))))
    (bits : ∀ j, (g (s.fileValue f)).getLsbD j = bit j) :
    ∃ t y, exec i s = .next t ∧ (∀ j, y.getLsbD j = bit j)
      ∧ Leaves s t (destReg d (s.sel f)) y none none (some (decide (y.toNat = 0))) 1 ∧ InputsAfterRead s t f := by
  obtain ⟨t, run, left⟩ := fileOp_completes run (congrArg (Prod.mk _) (FlagUpdate.zero_eq _))
  exact ⟨t, _, run, bits, left⟩

/-- An instruction with a literal operand that writes Z alone, its result known bit by bit. -/
theorem literalLogic_completes {y : Byte} {bit : Nat → Bool} (run : exec i s = .next (s.literalOp y (.zero y)))
    (bits : ∀ j, y.getLsbD j = bit j) :
    ∃ t y, exec i s = .next t ∧ (∀ j, y.getLsbD j = bit j)
      ∧ Leaves s t none y none none (some (decide (y.toNat = 0))) 1 ∧ InputsUnread s t := by
  have left := s.commitW_leaves y (.zero y)
  rw [FlagUpdate.zero_eq] at left run
  exact ⟨_, y, run, bits, left, rfl, rfl⟩

end

/-! ### The obligations -/

/-- Settles O31: the flags of the sum are those of R91 `Add` in natural numbers. -/
theorem addwfAddsWithFlags : Obligations.AddwfAddsWithFlags := by
  intro s f d
  exact ⟨isWord_fileDest (op := 0b000111#6) rfl fun _ => rfl,
    fileOp_completes rfl (addFlags_eq (s.fileValue f) s.w)⟩

/-- Settles O32: the flags of the difference are those of R91 `Sub` in natural numbers. -/
theorem subwfSubtractsWFromTheFileRegister : Obligations.SubwfSubtractsWFromTheFileRegister := by
  intro s f d
  exact ⟨isWord_fileDest (op := 0b000010#6) rfl fun _ => rfl,
    fileOp_completes rfl (subFlags_eq (s.fileValue f) s.w)⟩

/-- Settles O33: one general effect, with the bits of each of the three operations. -/
theorem logicWithFileRegisterWritesZAlone : Obligations.LogicWithFileRegisterWritesZAlone := by
  intro s f d
  refine ⟨⟨isWord_fileDest (op := 0b000100#6) rfl fun _ => rfl, ?iorwf⟩,
    ⟨isWord_fileDest (op := 0b000101#6) rfl fun _ => rfl, ?andwf⟩,
    ⟨isWord_fileDest (op := 0b000110#6) rfl fun _ => rfl, ?xorwf⟩⟩
  case iorwf => exact fileLogic_completes rfl fun _ => BitVec.getLsbD_or
  case andwf => exact fileLogic_completes rfl fun _ => BitVec.getLsbD_and
  case xorwf => exact fileLogic_completes rfl fun _ => BitVec.getLsbD_xor

/-- Settles O34: one general effect, with the bits of each of the three operations. -/
theorem logicWithLiteralWritesWAndZAlone : Obligations.LogicWithLiteralWritesWAndZAlone := by
  intro s k
  refine ⟨⟨isWord_literal (op := 0b1101#4) rfl fun _ => rfl, ?iorlw⟩,
    ⟨isWord_literal (op := 0b1110#4) rfl fun _ => rfl, ?andlw⟩,
    ⟨isWord_literal (op := 0b1111#4) rfl fun _ => rfl, ?xorlw⟩⟩
  case iorlw => exact literalLogic_completes rfl fun _ => BitVec.getLsbD_or
  case andlw => exact literalLogic_completes rfl fun _ => BitVec.getLsbD_and
  case xorlw => exact literalLogic_completes rfl fun _ => BitVec.getLsbD_xor

end Sys2Proof.Machine

/-! Increment and decrement (spec/41_incdec.md R100, R101). -/

namespace Sys2Proof.Machine

/-- A result known as a number modulo 256, with the one flag Z as a claim `p` about that number (R26). -/
theorem withZ_eq {r : Byte} {n : Nat} {p : Prop} [Decidable p] (value : r = BitVec.ofNat 8 n)
    (wraps : n % 256 = 0 ↔ p) : withZ r = (BitVec.ofNat 8 n, ⟨none, none, some (decide p)⟩) := by
  have zero : r = 0 ↔ p := value ▸ (ofNat_eq_zero n).trans wraps
  rw [withZ, FlagUpdate.zero, decide_eq_decide.mpr zero, value]

/-- Minus 1 is 0 from 1 alone; 0 wraps to 255 (R100). -/
theorem withZ_sub_one_eq (x : Byte) :
    withZ (x - 1) = (BitVec.ofNat 8 (x.toNat + 255), ⟨none, none, some (decide (x.toNat = 1))⟩) :=
  withZ_eq (sub_one_eq x) (by have := x.isLt; omega)

/-- Plus 1 is 0 from 255 alone, where it wraps (R101). -/
theorem withZ_add_one_eq (x : Byte) :
    withZ (x + 1) = (BitVec.ofNat 8 (x.toNat + 1), ⟨none, none, some (decide (x.toNat = 255))⟩) :=
  withZ_eq (add_one_eq x) (by have := x.isLt; omega)

/-- Settles O35: one general effect, with the wrap and the flag Z of each of the two operations. -/
theorem decfAndIncfWrapAndWriteZAlone : Obligations.DecfAndIncfWrapAndWriteZAlone := by
  intro s f d
  refine ⟨⟨isWord_fileDest (op := 0b000011#6) rfl fun _ => rfl, ?decf⟩,
    ⟨isWord_fileDest (op := 0b001010#6) rfl fun _ => rfl, ?incf⟩⟩
  case decf => exact fileOp_completes rfl (withZ_sub_one_eq (s.fileValue f))
  case incf => exact fileOp_completes rfl (withZ_add_one_eq (s.fileValue f))

end Sys2Proof.Machine

/-! Rotate and swap (spec/42_rotate_swap.md R105 to R107). -/

namespace Sys2Proof.Machine

/-! ### One instruction -/

/-- Settles O36: one general effect, with the nine bits of each of the two rotations in natural numbers. -/
theorem rotatesMoveNineBitsThroughCarry : Obligations.RotatesMoveNineBitsThroughCarry := by
  intro s f d
  refine ⟨⟨isWord_fileDest (op := 0b001100#6) rfl fun _ => rfl, ?rrf⟩,
    ⟨isWord_fileDest (op := 0b001101#6) rfl fun _ => rfl, ?rlf⟩⟩
  case rrf => exact fileOp_completes rfl (s.carry_toNat ▸ rotateRight_eq (s.fileValue f) s.carry)
  case rlf => exact fileOp_completes rfl (s.carry_toNat ▸ rotateLeft_eq (s.fileValue f) s.carry)

/-- Settles O38: the swapped byte is a result with no flag. -/
theorem swapfExchangesNibbles : Obligations.SwapfExchangesNibbles := by
  intro s f d
  exact ⟨isWord_fileDest (op := 0b001110#6) rfl fun _ => rfl,
    fileOp_completes rfl (congrArg withNone (swapNibbles_eq (s.fileValue f)))⟩

/-! ### Rotations to the right add up -/

/-- Bit `i` of a rotation to the right by `r` is bit `i + r`, counted round. -/
theorem bitVec_getLsbD_rotateRight {w : Nat} (x : BitVec w) (r : Nat) {i : Nat} (hi : i < w) :
    (x.rotateRight r).getLsbD i = x.getLsbD ((i + r) % w) := by
  have hr : r % w < w := Nat.mod_lt r (by omega)
  rw [BitVec.getLsbD_rotateRight, ← Nat.add_mod_mod i r w]
  by_cases stays : i < w - r % w
  · rw [decide_eq_true stays, cond_true, Nat.add_comm, Nat.mod_eq_of_lt (a := i + r % w) (by omega)]
  · have round : (i + r % w) % w = i - (w - r % w) := by
      rw [Nat.mod_eq_sub_mod (by omega), Nat.mod_eq_of_lt (a := i + r % w - w) (by omega)]
      omega
    rw [decide_eq_false stays, cond_false, decide_eq_true hi, Bool.true_and, round]

theorem bitVec_rotateRight_add {w : Nat} (x : BitVec w) (m n : Nat) :
    (x.rotateRight m).rotateRight n = x.rotateRight (m + n) := by
  apply BitVec.eq_of_getLsbD_eq
  intro i hi
  rw [bitVec_getLsbD_rotateRight _ _ hi, bitVec_getLsbD_rotateRight _ _ hi,
    bitVec_getLsbD_rotateRight _ _ (Nat.mod_lt _ (by omega)), Nat.mod_add_mod, Nat.add_assoc,
    Nat.add_comm n]

theorem bitVec_rotateRight_zero {w : Nat} (x : BitVec w) : x.rotateRight 0 = x := by
  apply BitVec.eq_of_getLsbD_eq
  intro i hi
  rw [bitVec_getLsbD_rotateRight x 0 hi, Nat.add_zero, Nat.mod_eq_of_lt hi]

/-- As many single rotations as there are bits are a full turn. -/
theorem bitVec_rotateRight_width {w : Nat} (x : BitVec w) : x.rotateRight w = x := by
  rw [← BitVec.rotateRight_mod_eq_rotateRight, Nat.mod_self, bitVec_rotateRight_zero]

/-! ### The nine bits `C : x` of a storage byte (R105) -/

/-- A rotation through C is one of the nine bits `C : x` by one place. -/
theorem ofBool_append_rotateRight (x : Byte) (c : Bool) :
    BitVec.ofBool (x.getLsbD 0) ++ (rotateRight x c).1 = (BitVec.ofBool c ++ x : BitVec 9).rotateRight 1 := by
  apply BitVec.eq_of_getLsbD_eq
  intro i hi
  rw [bitVec_getLsbD_rotateRight _ _ hi]
  simp only [rotateRight, BitVec.getLsbD_append, BitVec.getLsbD_extractLsb', BitVec.getLsbD_ofBool]
  rcases (by omega : i < 7 ∨ i = 7 ∨ i = 8) with low | rfl | rfl
  · rw [Nat.mod_eq_of_lt (by omega), if_pos (by omega), if_pos low, if_pos (by omega), decide_eq_true low,
      Bool.true_and, Nat.add_comm]
  · rfl
  · rfl

/-- C above the storage byte `a`: the nine bits that RRF rotates. -/
def State.carryByte (s : State) (a : Nat) : BitVec 9 := BitVec.ofBool s.carry ++ s.ram.read a

theorem State.carryByte_inj {s t : State} {a : Nat} (h : t.carryByte a = s.carryByte a) :
    t.carry = s.carry ∧ t.ram.read a = s.ram.read a := by
  have parts (u : State) : (u.carryByte a).extractLsb' 8 1 = BitVec.ofBool u.carry
      ∧ (u.carryByte a).extractLsb' 0 8 = u.ram.read a :=
    ⟨BitVec.extractLsb'_append_eq_left, BitVec.extractLsb'_append_eq_right⟩
  obtain ⟨carry_t, byte_t⟩ := parts t
  obtain ⟨carry_s, byte_s⟩ := parts s
  rw [h] at carry_t byte_t
  exact ⟨BitVec.ofBool_eq_iff_eq.mp (carry_t.symm.trans carry_s), byte_t.symm.trans byte_s⟩

/-- STATUS is the same in both states but for C (R25). -/
def SameStatusAboveC (s t : State) : Prop := ∀ i ≠ bitC, t.status.getLsbD i = s.status.getLsbD i

theorem SameStatusAboveC.status_eq {s t : State} (above : SameStatusAboveC s t) (carry : t.carry = s.carry) :
    t.status = s.status := by
  apply BitVec.eq_of_getLsbD_eq
  intro i _
  by_cases isC : i = bitC
  · exact isC ▸ carry
  · exact above i isC

/-! ### RRF on a storage byte -/

/-- A read-modify-write of a storage byte writes that byte, the flags and pc. -/
theorem State.fileOp_storage {s : State} {f : FileAddr} {a : Nat} (h : s.sel f = .storage a)
    (g : Byte → Byte × FlagUpdate) :
    s.fileOp f .f g = { s with
      ram := s.ram.write a (g (s.ram.read a)).1
      status := (g (s.ram.read a)).2.apply s.status
      pc := s.pcPlus 1 } := by
  rw [State.fileOp, h]; rfl

/-- `RRF f,1` on a storage byte: the operand selects the same byte again, the nine bits are rotated by one place, and
STATUS keeps its bits above C (R105). -/
theorem rrf_storage {s t : State} {f : FileAddr} {a : Nat} (h : s.sel f = .storage a)
    (run : exec (.rrf f .f) s = .next t) :
    t.sel f = .storage a ∧ t.carryByte a = (s.carryByte a).rotateRight 1 ∧ SameStatusAboveC s t := by
  obtain rfl := (State.fileOp_storage h (fun x => rotateRight x s.carry)).symm.trans (Host.Outcome.next.inj run)
  refine ⟨(State.sel_congr rfl rfl f).trans h, ?_, fun i above => ?_⟩
  · unfold State.carryByte
    rw [← ofBool_append_rotateRight, Memory.read_write, if_pos rfl]
    congr 2
    exact FlagUpdate.apply_getLsbD _ s.status bitC
  · rw [FlagUpdate.apply_getLsbD, if_neg above]
    split_ifs with z dc
    · exact z ▸ rfl
    · exact dc ▸ rfl
    · rfl

/-- `n` times `RRF f,1` rotate the nine bits by `n` places. -/
theorem rrf_path_storage {f : FileAddr} {a N : Nat} {path : Nat → State} (h : (path 0).sel f = .storage a)
    (run : ∀ n < N, exec (.rrf f .f) (path n) = .next (path (n + 1))) (n : Nat) (hn : n ≤ N) :
    (path n).sel f = .storage a ∧ (path n).carryByte a = ((path 0).carryByte a).rotateRight n
      ∧ SameStatusAboveC (path 0) (path n) := by
  induction n with
  | zero => exact ⟨h, (bitVec_rotateRight_zero _).symm, fun _ _ => rfl⟩
  | succ n ih =>
    obtain ⟨sel, turned, above⟩ := ih (Nat.le_of_succ_le hn)
    obtain ⟨sel', turned', above'⟩ := rrf_storage sel (run n hn)
    refine ⟨sel', ?_, fun i hi => (above' i hi).trans (above i hi)⟩
    rw [turned', turned, bitVec_rotateRight_add]

/-- Settles O37: nine places are a full turn of the nine bits. -/
theorem nineRightRotationsRestoreByteAndCarry : Obligations.NineRightRotationsRestoreByteAndCarry := by
  rintro s f a path hsel rfl run
  obtain ⟨_, turned, above⟩ := rrf_path_storage hsel run 9 le_rfl
  obtain ⟨carry, byte⟩ := State.carryByte_inj (turned.trans (bitVec_rotateRight_width _))
  exact ⟨byte, above.status_eq carry⟩

end Sys2Proof.Machine

/-! Bit manipulation (spec/43_bit_manipulation.md R110, R111). -/

namespace Sys2Proof.Machine

/-! ### The word of format B as a number (R72) -/

/-- The opcode, `b` and `f` side by side. -/
theorem encodeFileBit_toNat (op : BitVec 4) (f : FileAddr) (b : BitIndex) :
    (encodeFileBit op f b).toNat = 256 * op.toNat + 32 * b.toNat + f.toNat := by
  rw [encodeFileBit, BitVec.toNat_append, ← Nat.shiftLeft_add_eq_or_of_lt f.isLt, BitVec.toNat_append,
    ← Nat.shiftLeft_add_eq_or_of_lt b.isLt, Nat.shiftLeft_eq, Nat.shiftLeft_eq]
  omega

theorem isWord_fileBit {i : Instr} {op : BitVec 4} {f : FileAddr} {b : BitIndex}
    (word : encode i = encodeFileBit op f b) (everywhere : ∀ v, i.wellFormed v = true) :
    IsWord (256 * op.toNat + 32 * b.toNat + f.toNat) i :=
  isWord_of_encode_toNat (word ▸ encodeFileBit_toNat op f b) everywhere

/-! ### The byte with one bit changed (R73) -/

theorem getLsbD_or_bitMask (x : Byte) (b : BitIndex) (i : Nat) :
    (x ||| bitMask b).getLsbD i = (x.getLsbD i || decide (i = b.toNat)) := by
  rw [BitVec.getLsbD_or, bitMask_getLsbD]

/-- Above bit 7 both sides are clear, below it the complement of the mask is set everywhere but at `b`. -/
theorem getLsbD_and_not_bitMask (x : Byte) (b : BitIndex) (i : Nat) :
    (x &&& ~~~bitMask b).getLsbD i = (x.getLsbD i && decide (i ≠ b.toNat)) := by
  rw [BitVec.getLsbD_and, BitVec.getLsbD_not, bitMask_getLsbD, decide_not]
  by_cases inside : i < 8
  · rw [decide_eq_true inside, Bool.true_and]
  · rw [BitVec.getLsbD_of_ge x i (Nat.le_of_not_lt inside), Bool.false_and, Bool.false_and]

/-! ### The obligation -/

/-- An instruction that writes its file operand back and no flag, the byte written known bit by bit (R90). -/
theorem fileRewrite_completes {i : Instr} {s : State} {f : FileAddr} {g : Byte → Byte} {bit : Nat → Bool}
    (run : exec i s = .next (s.fileOp f .f (fun x => withNone (g x))))
    (bits : ∀ j, (g (s.fileValue f)).getLsbD j = bit j) :
    ∃ t y, exec i s = .next t ∧ (∀ j, y.getLsbD j = bit j)
      ∧ Leaves s t (some (s.sel f)) y none none none 1 ∧ InputsAfterRead s t f := by
  obtain ⟨t, run, left⟩ := fileOp_completes run rfl
  exact ⟨t, _, run, bits, left⟩

/-- Settles O39: one general effect, with the bits of each of the two operations. -/
theorem bcfAndBsfChangeOneBit : Obligations.BcfAndBsfChangeOneBit := by
  intro s f b
  refine ⟨⟨isWord_fileBit (op := 0b0100#4) rfl fun _ => rfl, ?bcf⟩,
    ⟨isWord_fileBit (op := 0b0101#4) rfl fun _ => rfl, ?bsf⟩⟩
  case bcf => exact fileRewrite_completes rfl (getLsbD_and_not_bitMask (s.fileValue f) b)
  case bsf => exact fileRewrite_completes rfl (getLsbD_or_bitMask (s.fileValue f) b)

end Sys2Proof.Machine

/-! Clear, complement, load and store (spec/44_clear_complement.md R115 to R117, spec/45_load_store.md R120 to R122). -/

namespace Sys2Proof.Machine

/-! ### The word of format F as a number (R72) -/

/-- The opcode and `f` side by side. -/
theorem encodeFile_toNat (op : BitVec 7) (f : FileAddr) : (encodeFile op f).toNat = 32 * op.toNat + f.toNat := by
  rw [encodeFile, BitVec.toNat_append, ← Nat.shiftLeft_add_eq_or_of_lt f.isLt, Nat.shiftLeft_eq]
  omega

theorem isWord_file {i : Instr} {op : BitVec 7} {f : FileAddr} (word : encode i = encodeFile op f)
    (everywhere : ∀ v, i.wellFormed v = true) : IsWord (32 * op.toNat + f.toNat) i :=
  isWord_of_encode_toNat (word ▸ encodeFile_toNat op f) everywhere

/-! ### What the instructions leave (R90) -/

section
variable {i : Instr} {s : State} {y : Byte} {c dc z : Option Bool}

/-- An instruction that writes a known byte to the selected register leaves it there by its write rule, and the
environment keeps its answers: nothing is read. -/
theorem fileStore_completes {f : FileAddr} (run : exec i s = .next (s.commitFile (s.sel f) y ⟨c, dc, z⟩)) :
    ∃ t, exec i s = .next t ∧ Leaves s t (some (s.sel f)) y c dc z 1 ∧ InputsUnread s t :=
  ⟨_, run, s.commitFile_leaves (s.sel f) y ⟨c, dc, z⟩, s.commitFile_inputs (s.sel f) y ⟨c, dc, z⟩⟩

/-- An instruction that loads a known byte into W accesses no file register. -/
theorem literalLoad_completes (run : exec i s = .next (s.literalOp y ⟨c, dc, z⟩)) :
    ∃ t, exec i s = .next t ∧ Leaves s t none y c dc z 1 ∧ InputsUnread s t :=
  ⟨_, run, s.commitW_leaves y ⟨c, dc, z⟩, rfl, rfl⟩

end

/-- The complement is 0 for 255 alone (R117). -/
theorem withZ_not_eq (x : Byte) :
    withZ (~~~x) = (BitVec.ofNat 8 (255 - x.toNat), ⟨none, none, some (decide (x.toNat = 255))⟩) :=
  withZ_eq (not_eq x) (by have := x.isLt; omega)

/-- A copied value writes Z as a claim about its number (R121). -/
theorem withZ_self_eq (x : Byte) : withZ x = (x, ⟨none, none, some (decide (x.toNat = 0))⟩) :=
  congrArg (Prod.mk x) (FlagUpdate.zero_eq x)

/-! ### The obligations -/

/-- Settles O41: one general store, with 0 and Z set for CLRF, with W and no flag for MOVWF. -/
theorem clrfAndMovwfStoreWithoutReading : Obligations.ClrfAndMovwfStoreWithoutReading := by
  intro s f
  refine ⟨⟨isWord_file (encode_clrf f) fun _ => rfl, ?clrf⟩, ⟨isWord_file (encode_movwf f) fun _ => rfl, ?movwf⟩⟩
  case clrf => exact fileStore_completes rfl
  case movwf => exact fileStore_completes rfl

/-- Settles O42: one general effect, with the result and the flag Z of the complement and of the copy. -/
theorem comfAndMovfWriteZAlone : Obligations.ComfAndMovfWriteZAlone := by
  intro s f d
  refine ⟨⟨isWord_fileDest (op := 0b001001#6) rfl fun _ => rfl, ?comf⟩,
    ⟨isWord_fileDest (op := 0b001000#6) rfl fun _ => rfl, ?movf⟩⟩
  case comf => exact fileOp_completes rfl (withZ_not_eq (s.fileValue f))
  case movf => exact fileOp_completes rfl (withZ_self_eq (s.fileValue f))

/-- Settles O40: one general load of W, with 0 and Z set for CLRW, with `k` and no flag for MOVLW. -/
theorem clrwAndMovlwLoadW : Obligations.ClrwAndMovlwLoadW := by
  intro s k
  refine ⟨⟨isWord_of_encode_toNat rfl fun _ => rfl, ?clrw⟩,
    ⟨isWord_literal (op := 0b1100#4) rfl fun _ => rfl, ?movlw⟩⟩
  case clrw => exact literalLoad_completes rfl
  case movlw => exact literalLoad_completes rfl

end Sys2Proof.Machine

/-! OPTION and TRIS (spec/46_option_tris.md R125, R126). -/

namespace Sys2Proof.Machine

/-! ### The words of TRIS (R77 step 8, R79) -/

/-- At the word of a port's TRIS instruction the decoder asks only whether the variant has the port. -/
theorem decode_portFileAddr (v : Variant) (p : Port) :
    decode v (BitVec.ofNat 12 p.fileAddr) = decodeTris v p (trisInstr p) := by
  cases p <;> rfl

theorem decode_portFileAddr_eq_ok_iff (v : Variant) (p : Port) (i : Instr) :
    decode v (BitVec.ofNat 12 p.fileAddr) = .ok i ↔ v.hasPort p = true ∧ trisInstr p = i := by
  rw [decode_portFileAddr, decodeTris_eq_ok_iff]

/-! ### The two outcomes of TRIS (R126) -/

theorem exec_trisInstr_of_hasPort {s : State} {p : Port} (has : s.variant.hasPort p = true) :
    exec (trisInstr p) s = .next ({ s with tris := s.tris.set p (s.w &&& p.mask) } : State).advance :=
  (exec_trisInstr p s).trans (if_pos has)

theorem exec_trisInstr_of_not_hasPort {s : State} {p : Port} (absent : s.variant.hasPort p = false) :
    exec (trisInstr p) s = .fault (.illegalEncoding (BitVec.ofNat 12 p.fileAddr)) :=
  (exec_trisInstr p s).trans (if_neg (ne_true_of_eq_false absent))

/-! ### The frame of a load outside the file -/

/-- Everything but the registers outside the file (R33, R34) is the same, and `pc` is one word further: the frame that
the statements of OPTION and TRIS share. -/
def SameButOutside (s t : State) : Prop :=
  t.w = s.w ∧ t.status = s.status ∧ t.pc.toNat = nextAddr s 1 ∧ SameFile s t ∧ SameArguments s t ∧ SameStack s t
    ∧ SameWatchdog s t ∧ t.asleep = s.asleep ∧ SameInputs s t

theorem sameButOutside_advance (s : State) (option : Byte) (tris : PortFile) :
    SameButOutside s ({ s with optionReg := option, tris := tris } : State).advance :=
  ⟨rfl, rfl, s.pcPlus_toNat 1, ⟨rfl, rfl, rfl, fun _ => rfl⟩, ⟨rfl, rfl, rfl⟩, ⟨rfl, rfl, rfl⟩, ⟨rfl, rfl⟩, rfl,
    ⟨rfl, rfl, rfl⟩⟩

/-! ### The obligations -/

/-- Settles O44: the decoder and the instruction both test whether the variant has the port, and the load leaves the
entry of every other port. -/
theorem trisLoadsThePortsRegister : Obligations.TrisLoadsThePortsRegister := by
  intro s p
  refine ⟨encode_trisInstr p, fun has => ⟨?decoded, ?loaded⟩, fun absent => ⟨?rejected, ?faults⟩⟩
  case decoded => exact (decode_portFileAddr_eq_ok_iff s.variant p _).mpr ⟨has, rfl⟩
  case loaded =>
    exact ⟨_, exec_trisInstr_of_hasPort has, fun q => s.tris.get_set p q (s.w &&& p.mask), rfl,
      sameButOutside_advance s s.optionReg _⟩
  case rejected =>
    intro i decoded
    obtain ⟨has, _⟩ := (decode_portFileAddr_eq_ok_iff s.variant p i).mp decoded
    exact Bool.false_ne_true (absent.symm.trans has)
  case faults => exact exec_trisInstr_of_not_hasPort absent

/-- Settles O43: the one word of OPTION, and a load of W that leaves the TRIS registers. -/
theorem optionLoadsOptionRegister : Obligations.OptionLoadsOptionRegister := by
  intro s
  exact ⟨isWord_of_encode_toNat rfl fun _ => rfl, _, rfl, rfl, rfl, sameButOutside_advance s s.w s.tris⟩

end Sys2Proof.Machine

/-! Jumps, subroutines and system instructions (spec/47_jumps_system.md R130 to R135). -/

namespace Sys2Proof.Machine

/-! ### The word of GOTO as a number (R72) -/

/-- Format G: the opcode and `k` side by side. -/
theorem encodeGoto_toNat (op : BitVec 3) (k : BitVec 9) : (encodeGoto op k).toNat = 512 * op.toNat + k.toNat := by
  rw [encodeGoto, BitVec.toNat_append, ← Nat.shiftLeft_add_eq_or_of_lt k.isLt, Nat.shiftLeft_eq]
  omega

theorem isWord_goto (k : BitVec 9) : IsWord (0xA00 + k.toNat) (.goto k) :=
  isWord_of_encode_toNat (encode_goto k ▸ encodeGoto_toNat 0b101#3 k) fun _ => rfl

/-! ### SLEEP and CLRWDT (R131, R132) -/

/-- The bits of STATUS after SLEEP and CLRWDT, /TO first as R131 and R132 name them. -/
theorem statusToPd_getLsbD_to_first (st : Byte) (nTO nPD : Bool) (i : Nat) :
    (statusToPd st nTO nPD).getLsbD i = if i = 4 then nTO else if i = 3 then nPD else st.getLsbD i :=
  have apart : i = 3 → ¬ i = 4 := by omega
  (statusToPd_getLsbD st nTO nPD i).trans (ite_ite_comm _ _ _ _ apart)

/-- /TO and /PD put to one value, as CLRWDT puts them. -/
theorem statusToPd_same_getLsbD (st : Byte) (x : Bool) (i : Nat) :
    (statusToPd st x x).getLsbD i = if i = 4 ∨ i = 3 then x else st.getLsbD i :=
  (statusToPd_getLsbD_to_first st x x i).trans (ite_or ..).symm

/-- Everything but the watchdog, STATUS and sleep is the same, and `pc` is one word further: the frame that the
statements of SLEEP and CLRWDT share. -/
def SameButWatchdog (s t : State) : Prop :=
  t.pc.toNat = nextAddr s 1 ∧ t.w = s.w ∧ SameFile s t ∧ SameArguments s t ∧ SameStack s t ∧ SameOutside s t
    ∧ SameInputs s t

theorem sameButWatchdog_advance (s : State) (wdt pre : Nat) (status : Byte) (asleep : Bool) :
    SameButWatchdog s ({ s with wdt := wdt, pre := pre, status := status, asleep := asleep } : State).advance :=
  ⟨s.pcPlus_toNat 1, rfl, ⟨rfl, rfl, rfl, fun _ => rfl⟩, ⟨rfl, rfl, rfl⟩, ⟨rfl, rfl, rfl⟩, ⟨rfl, rfl⟩, ⟨rfl, rfl, rfl⟩⟩

/-! ### The obligations -/

/-- Settles O49: the two outcomes of `exec_call_cases`, told apart by the number of entries on the stack. -/
theorem callPushesAndJumps : Obligations.CallPushesAndJumps := by
  intro s k
  refine ⟨isWord_literal (op := 0b1001#4) rfl fun _ => rfl, ?_⟩
  rcases exec_call_cases k s with ⟨full, faults⟩ | ⟨room, jumps⟩
  · exact ⟨fun room => absurd full (Nat.not_le_of_lt room), fun _ => faults⟩
  · exact ⟨fun _ => ⟨_, jumps, s.lowTarget_toNat k, s.pcPlus_toNat 1, rfl, rfl, rfl⟩,
      fun full => absurd full (Nat.not_le_of_lt room)⟩

/-- Settles O50: the two outcomes of `exec_retlw_cases`, told apart by whether the stack holds an entry. -/
theorem retlwPopsAndLoadsW : Obligations.RetlwPopsAndLoadsW := by
  intro s k
  refine ⟨isWord_literal (op := 0b1000#4) rfl fun _ => rfl, ?_⟩
  rcases exec_retlw_cases k s with ⟨empty, faults⟩ | ⟨entry, returns⟩
  · exact ⟨fun entry => absurd empty entry.ne', fun _ => faults⟩
  · exact ⟨fun _ => ⟨_, returns, rfl, rfl, rfl, rfl, rfl, rfl⟩, fun empty => absurd empty entry.ne'⟩

/-- Settles O48: the target is that of `State.gotoTarget`, in natural numbers. -/
theorem gotoGoesToThePageWord : Obligations.GotoGoesToThePageWord := by
  intro s k
  exact ⟨isWord_goto k, _, rfl, s.gotoTarget_toNat k, rfl⟩

/-- Settles O46: the two bits of STATUS, and the frame that SLEEP shares with CLRWDT. -/
theorem sleepEntersStandby : Obligations.SleepEntersStandby := by
  intro s
  exact ⟨isWord_of_encode_toNat rfl fun _ => rfl, _, rfl, rfl, rfl, rfl,
    statusToPd_getLsbD_to_first s.status true false, sameButWatchdog_advance s 0 0 _ true⟩

/-- Settles O47: the two bits of STATUS, and the frame that CLRWDT shares with SLEEP. -/
theorem clrwdtClearsTheWatchdog : Obligations.ClrwdtClearsTheWatchdog := by
  intro s
  exact ⟨isWord_of_encode_toNat rfl fun _ => rfl, _, rfl, rfl, rfl, rfl, statusToPd_same_getLsbD s.status true,
    sameButWatchdog_advance s 0 0 _ s.asleep⟩

/-- Settles O45: the advance alone, in natural numbers. -/
theorem nopOnlyAdvances : Obligations.NopOnlyAdvances := by
  intro s
  exact ⟨isWord_of_encode_toNat rfl fun _ => rfl, _, rfl, rfl, s.pcPlus_toNat 1⟩

end Sys2Proof.Machine

/-! Conditional skips (spec/48_skips.md R140 to R144): the words and effects of DECFSZ, INCFSZ, BTFSC and BTFSS. -/

namespace Sys2Proof.Machine

/-! ### The instructions that count and skip (R140, R141, R144) -/

/-- DECFSZ and INCFSZ leave a result known as a number `n` modulo 256, and skip as a claim `p` about that number
says. -/
theorem countSkip_completes {i : Instr} {s : State} {f : FileAddr} {d : Dest} {g : Byte → Byte} {n : Nat} {p : Prop}
    [Decidable p] (run : exec i s = s.countSkip f d g) (value : g (s.fileValue f) = BitVec.ofNat 8 n)
    (wraps : n % 256 = 0 ↔ p) :
    (destReg d (s.sel f) ≠ some .pcl → ∃ t, exec i s = .next t
        ∧ Leaves s t (destReg d (s.sel f)) (BitVec.ofNat 8 n) none none none (if p then 2 else 1)
        ∧ InputsAfterRead s t f)
      ∧ (destReg d (s.sel f) = some .pcl → exec i s = .fault (.refusedForm "skip with PCL destination")) := by
  rcases s.countSkip_cases f d g with ⟨pcl, refused⟩ | ⟨other, t, completes, left, inputs⟩
  · exact ⟨fun other => absurd pcl other, fun _ => run.trans refused⟩
  · have skips : (if BitVec.ofNat 8 n = 0 then 2 else 1) = if p then 2 else 1 :=
      if_congr ((ofNat_eq_zero n).trans wraps) rfl rfl
    rw [value, skips] at left
    exact ⟨fun _ => ⟨t, run.trans completes, left, inputs⟩, fun pcl => absurd pcl other⟩

/-- Settles O52: one general effect; minus 1 is 0 from 1 alone, plus 1 from 255 alone. -/
theorem countAndSkip : Obligations.CountAndSkip := by
  intro s f d
  have lt : (s.fileValue f).toNat < 256 := (s.fileValue f).isLt
  refine ⟨⟨isWord_fileDest (op := 0b001011#6) rfl fun _ => rfl, ?decfsz⟩,
    ⟨isWord_fileDest (op := 0b001111#6) rfl fun _ => rfl, ?incfsz⟩⟩
  case decfsz => exact countSkip_completes (g := fun x => x - 1) rfl (sub_one_eq (s.fileValue f)) (by omega)
  case incfsz => exact countSkip_completes (g := fun x => x + 1) rfl (add_one_eq (s.fileValue f)) (by omega)

/-! ### The instructions that test a bit (R142, R143) -/

/-- One bit of a byte as a claim about its number. -/
theorem getLsbD_eq_iff (x : Byte) (i : Nat) (want : Bool) :
    x.getLsbD i = want ↔ x.toNat / 2 ^ i % 2 = want.toNat := by
  rw [← Nat.toNat_testBit, BitVec.testBit_toNat]
  cases x.getLsbD i <;> cases want <;> decide

/-- BTFSC and BTFSS read their operand once, move `pc` on by the tested bit and change nothing else. -/
theorem testSkip_completes {i : Instr} {s : State} {f : FileAddr} {b : BitIndex} {want : Bool}
    (run : exec i s = .next (s.testSkip f b want)) :
    ∃ t, exec i s = .next t
      ∧ t.pc.toNat = nextAddr s (if (s.fileValue f).toNat / 2 ^ b.toNat % 2 = want.toNat then 2 else 1)
      ∧ { t with pc := s.pc, answers := s.answers, draws := s.draws } = s ∧ InputsAfterRead s t f := by
  obtain ⟨frame, pc, inputs⟩ := s.testSkip_eq f b want
  have tested := if_congr (getLsbD_eq_iff (s.fileValue f) b.toNat want) (Eq.refl 2) (Eq.refl 1)
  exact ⟨_, run, pc.trans (congrArg (nextAddr s) tested), frame, inputs⟩

/-- Settles O53: one general effect, with 0 and 1 as the bit that skips. -/
theorem testAndSkip : Obligations.TestAndSkip := by
  intro s f b
  refine ⟨⟨isWord_fileBit (op := 0b0110#4) rfl fun _ => rfl, ?btfsc⟩,
    ⟨isWord_fileBit (op := 0b0111#4) rfl fun _ => rfl, ?btfss⟩⟩
  case btfsc => exact testSkip_completes (want := false) rfl
  case btfss => exact testSkip_completes (want := true) rfl

end Sys2Proof.Machine

/-! The boundary before an instruction (spec/60_exceptions.md R151, R153, R159, R165): which causes of a reset there
are, and what a step does with them and without any. -/

namespace Sys2Proof.Machine

/-! ### The causes of a reset (R153, R159, R172) -/

section
variable {s : State}

/-- Each line gives at most one cause, the watchdog only when enabled, and sleep tells the two causes of a line
apart. -/
theorem State.mem_resetCauses (s : State) (x : ResetCause) :
    x ∈ s.resetCauses ↔ (s.resetLines.powerOn = true ∧ x = .powerOn)
      ∨ (s.resetLines.mclr = true ∧ x = if s.asleep then .mclrSleep else .mclr)
      ∨ ((s.wdtEnabled = true ∧ (s.resetLines.wdtTimeout = true ∨ Config.watchdogExpires s.draws = true))
          ∧ x = if s.asleep then .wdtSleep else .wdt) := by
  simp only [State.resetCauses, List.mem_append, List.mem_ite_nil_right, List.mem_singleton, Bool.and_eq_true,
    Bool.or_eq_true, or_assoc]

/-- With only power-on asserted and the watchdog off, power-on is the one cause. -/
theorem State.resetCauses_of_powerOn (off : s.wdtEnabled = false) (lines : s.resetLines = ⟨true, false, false⟩) :
    s.resetCauses = [.powerOn] := by
  simp [State.resetCauses, off, lines]

/-- With only /MCLR asserted and the watchdog off, /MCLR is the one cause. -/
theorem State.resetCauses_of_mclr (off : s.wdtEnabled = false) (lines : s.resetLines = ⟨false, true, false⟩) :
    s.resetCauses = [if s.asleep then .mclrSleep else .mclr] := by
  simp [State.resetCauses, off, lines]

/-- With only the time-out of the enabled watchdog asserted, the watchdog is the one cause. -/
theorem State.resetCauses_of_wdtTimeout (on : s.wdtEnabled = true) (lines : s.resetLines = ⟨false, false, true⟩) :
    s.resetCauses = [if s.asleep then .wdtSleep else .wdt] := by
  simp [State.resetCauses, on, lines]

/-- Awake, with no line asserted and the watchdog enabled, the free value of the boundary decides whether the watchdog is
a cause (log entry 12). -/
theorem State.resetCauses_of_idle (idle : s.resetLines = .idle) (on : s.wdtEnabled = true) (awake : s.asleep = false) :
    s.resetCauses = if Config.watchdogExpires s.draws then [.wdt] else [] := by
  simp [State.resetCauses, idle, ResetLines.idle, on, awake]

/-! ### The step at the boundary (R153, R165) -/

theorem step_of_resetCauses {c : ResetCause} {cs : List ResetCause} (causes : s.resetCauses = c :: cs) :
    step s = .next (s.takeReset c cs) := by
  rw [step, causes]

theorem step_of_no_resetCauses (quiet : s.resetCauses = []) : step s = coreStep s.passBoundary := by
  rw [step, quiet]

/-- Any cause at all makes the step a reset with all the causes there are. -/
theorem step_resets_of_mem_resetCauses {x : ResetCause} (cause : x ∈ s.resetCauses) :
    ∃ c cs, s.resetCauses = c :: cs ∧ step s = .next (s.takeReset c cs) := by
  obtain ⟨c, cs, causes⟩ := List.exists_cons_of_ne_nil (List.ne_nil_of_mem cause)
  exact ⟨c, cs, causes, step_of_resetCauses causes⟩

/-- With the watchdog off the step of a boundary without a cause is the core's, at the same state. -/
theorem step_of_watchdog_disabled (off : s.wdtEnabled = false) (quiet : s.resetCauses = []) : step s = coreStep s := by
  rw [step_of_no_resetCauses quiet, State.passBoundary_of_disabled off]

/-- With no line asserted and the watchdog off there is no cause of a reset. -/
theorem step_of_quiet (idle : s.resetLines = .idle) (off : s.wdtEnabled = false) : step s = coreStep s :=
  step_of_watchdog_disabled off (State.resetCauses_of_quiet (idle ▸ rfl) (idle ▸ rfl) off)

/-- With the watchdog enabled the free value of the boundary decides between its reset and the core's step, which finds
one free value used up (log entry 12). -/
theorem step_of_watchdog_enabled (idle : s.resetLines = .idle) (on : s.wdtEnabled = true) (awake : s.asleep = false) :
    step s = if Config.watchdogExpires s.draws then .next (s.takeReset .wdt [])
      else coreStep { s with draws := s.draws + 1 } := by
  have causes := State.resetCauses_of_idle idle on awake
  by_cases expires : Config.watchdogExpires s.draws = true
  · rw [if_pos expires] at causes ⊢
    exact step_of_resetCauses causes
  · rw [if_neg expires] at causes ⊢
    rw [step_of_no_resetCauses causes, State.passBoundary_of_enabled on]

/-! ### The core's step awake (R151, R165) -/

theorem coreStep_of_decode {i : Instr} (awake : s.asleep = false)
    (decoded : decode s.variant (s.prog.read s.pc.toNat) = .ok i) : coreStep s = exec i s := by
  rw [coreStep, awake, State.fetch, decoded]; rfl

theorem coreStep_of_unassigned (awake : s.asleep = false)
    (unassigned : ∀ i, decode s.variant (s.prog.read s.pc.toNat) ≠ .ok i) :
    coreStep s = .fault (.illegalEncoding (s.prog.read s.pc.toNat)) := by
  cases decoded : decode s.variant (s.prog.read s.pc.toNat) with
  | ok i => exact absurd decoded (unassigned i)
  | error e => rw [coreStep, awake, State.fetch, decoded]; rfl

end

/-- The word placed for the next fetch is the one it reads (R14, R51). -/
theorem State.placeWord_fetch (s : State) (x : InstrWord) : (s.placeWord x).fetch = x :=
  (ProgMem.read_write s.prog s.pc.toNat s.pc.toNat x).trans (if_pos rfl)

/-! ### The obligations -/

/-- Settles O14: the causes by `State.mem_resetCauses`; an asserted line is one of them, and asserted alone the only
one. -/
theorem assertedResetHappensAtTheBoundary : Obligations.AssertedResetHappensAtTheBoundary := by
  refine ⟨fun s => ?causes, fun s asserted => ?together, fun s off lines => ?powerOn, fun s off lines => ?mclr,
    fun s on lines => ?watchdog⟩
  case causes =>
    cases asleep : s.asleep <;> simp [State.mem_resetCauses, asleep]
  case together =>
    rcases asserted with powerOn | mclr | ⟨on, timeout⟩
    · exact step_resets_of_mem_resetCauses ((s.mem_resetCauses _).mpr (.inl ⟨powerOn, rfl⟩))
    · exact step_resets_of_mem_resetCauses ((s.mem_resetCauses _).mpr (.inr (.inl ⟨mclr, rfl⟩)))
    · exact step_resets_of_mem_resetCauses ((s.mem_resetCauses _).mpr (.inr (.inr ⟨⟨on, .inl timeout⟩, rfl⟩)))
  case powerOn => exact step_of_resetCauses (State.resetCauses_of_powerOn off lines)
  case mclr => exact step_of_resetCauses (State.resetCauses_of_mclr off lines)
  case watchdog => exact step_of_resetCauses (State.resetCauses_of_wdtTimeout on lines)

/-- Settles O5: no cause of a reset, so the step is the core's, awake. -/
theorem stepRunsTheDecodedInstruction : Obligations.StepRunsTheDecodedInstruction := by
  intro s i idle off awake decoded
  rw [step_of_quiet idle off, coreStep_of_decode awake decoded]

/-- Settles O6: the free value of the boundary decides, and the instruction finds it used up. -/
theorem stepWithEnabledWatchdogRunsOrResets : Obligations.StepWithEnabledWatchdogRunsOrResets := by
  intro s i idle on awake decoded
  have runs : coreStep { s with draws := s.draws + 1 } = exec i { s with draws := s.draws + 1 } :=
    coreStep_of_decode awake decoded
  rw [step_of_watchdog_enabled idle on awake, runs]

/-- Settles O7: the placed word is fetched, and it decodes to the instruction it encodes. -/
theorem placedWordIsTheNextInstruction : Obligations.PlacedWordIsTheNextInstruction := by
  intro s i off wf
  have placed : s.withFetchWord 12 (encode i).toNat = s.placeWord (encode i) :=
    congrArg s.placeWord (BitVec.ofNat_toNat _ _ |>.trans (BitVec.setWidth_eq _))
  have decoded : decode s.variant (s.placeWord (encode i)).fetch = .ok i := by
    rw [State.placeWord_fetch]
    exact decodeOfEncodeIsTheInstruction s.variant i wf
  rw [placed]
  exact stepRunsTheDecodedInstruction _ i rfl off rfl decoded

/-- Settles O8: the core's step is the fault, with the free value of the boundary before it when the watchdog is on. -/
theorem unassignedWordFaultsWithTheWord : Obligations.UnassignedWordFaultsWithTheWord := by
  intro s idle awake unassigned
  refine ⟨fun off => ?off, fun on => ?on⟩
  case off => rw [step_of_quiet idle off, coreStep_of_unassigned awake unassigned]
  case on =>
    have faults : coreStep { s with draws := s.draws + 1 } = .fault (.illegalEncoding (s.prog.read s.pc.toNat)) :=
      coreStep_of_unassigned awake unassigned
    rw [step_of_watchdog_enabled idle on awake, faults]

/-- Settles O15: a watchdog cause needs the watchdog enabled, and the other lines give no other cause. -/
theorem disabledWatchdogNeverResets : Obligations.DisabledWatchdogNeverResets := by
  intro s off
  obtain ⟨causes, _⟩ := assertedResetHappensAtTheBoundary
  obtain ⟨_, _, _, wdt, wdtSleep⟩ := causes s
  have disabled : ¬ s.wdtEnabled = true := ne_true_of_eq_false off
  refine ⟨⟨fun cause => ?wdt, fun cause => ?wdtSleep⟩, fun powerOn mclr => ?quiet⟩
  case wdt => exact disabled (wdt.mp cause).left
  case wdtSleep => exact disabled (wdtSleep.mp cause).left
  case quiet =>
    have quiet := State.resetCauses_of_quiet powerOn mclr off
    exact ⟨quiet, step_of_watchdog_disabled off quiet⟩

end Sys2Proof.Machine

/-! The reset event (spec/70_reset_and_hazards.md R170 to R172, spec/60_exceptions.md R154): its values, and the bits /TO
and /PD by the causes. -/

namespace Sys2Proof.Machine

/-! ### STATUS after a reset event (R170, R172) -/

section
variable (s : State) (c : ResetCause) (cs : List ResetCause)

theorem State.takeReset_status_high : (s.takeReset c cs).status.extractLsb' 5 3 = 0 :=
  let ⟨high, _, _⟩ := statusAfterReset_bits _ _ s.draws
  high

/-- /TO is the one that the picked cause gives (R154); a single cause is picked. -/
theorem State.takeReset_nTO :
    (s.takeReset c cs).status.getLsbD 4 = (s.toPdAfter (pickCause c cs (Config.whichCauseTo s.draws))).1 :=
  let ⟨_, nTO, _⟩ := statusAfterReset_bits _ _ s.draws
  nTO

/-- /PD is the one that the picked cause gives (R154); a single cause is picked. -/
theorem State.takeReset_nPD :
    (s.takeReset c cs).status.getLsbD 3 = (s.toPdAfter (pickCause c cs (Config.whichCausePd s.draws))).2 :=
  let ⟨_, _, nPD⟩ := statusAfterReset_bits _ _ s.draws
  nPD

end

/-- The row of one cause in the table of R172. -/
theorem State.takeReset_toPd {s : State} {c : ResetCause} {nTO nPD : Bool} (row : s.toPdAfter c = (nTO, nPD)) :
    (s.takeReset c []).status.getLsbD 4 = nTO ∧ (s.takeReset c []).status.getLsbD 3 = nPD :=
  ⟨(s.takeReset_nTO c []).trans (congrArg Prod.fst row), (s.takeReset_nPD c []).trans (congrArg Prod.snd row)⟩

/-! ### The obligations -/

/-- Settles O56: each of the two bits is the one that the cause picked for it gives alone, and the causes enter a reset
event through these two bits only. -/
theorem simultaneousCausesGiveToAndPdOfSomeCause : Obligations.SimultaneousCausesGiveToAndPdOfSomeCause := by
  intro s c cs
  refine ⟨?nTO, ?nPD, fun x _ => ⟨rfl, fun i h4 h3 => ?others⟩⟩
  case nTO => exact ⟨_, pickCause_mem c cs _, (s.takeReset_nTO c cs).trans (s.takeReset_nTO _ []).symm⟩
  case nPD => exact ⟨_, pickCause_mem c cs _, (s.takeReset_nPD c cs).trans (s.takeReset_nPD _ []).symm⟩
  case others => exact statusAfterReset_other_bits _ _ _ _ s.draws i h4 h3

/-- Settles O12: the values are those `State.resetWith` names; the entry is the last address of the variant. -/
theorem resetEventGivesTheResetLineValues : Obligations.ResetEventGivesTheResetLineValues := by
  intro s c cs
  exact ⟨resetPc_toNat s.variant, s.takeReset_status_high c cs, rfl, PortFile.get_build s.variant.portMask, rfl, rfl,
    s.takeReset_sameArguments c cs, rfl⟩

/-- Settles O13: the rows of R172, where the free value picks one of the two of /MCLR running. -/
theorem resetEventSetsToAndPdByCause : Obligations.ResetEventSetsToAndPdByCause := by
  intro s
  refine ⟨State.takeReset_toPd rfl, ?mclr, State.takeReset_toPd rfl, State.takeReset_toPd rfl,
    State.takeReset_toPd rfl⟩
  case mclr =>
    by_cases keeps : Config.mclrKeepsToPd s.draws = true
    · exact .inr (State.takeReset_toPd (if_pos keeps))
    · exact .inl (State.takeReset_toPd (if_neg keeps))

end Sys2Proof.Machine
